-- ==== Sys2Proof/Word.lean ====
section
/-! DEFINITION. The widths of the values the spec handles as bits (R6, R8, R60, R65), and the legal
widths of a reflection (R83). -/

namespace Sys2Proof

/-- A Word, and the width of the CRC Register and of the Result: 32 bits, unsigned (R6, R14). -/
abbrev Word := BitVec 32

/-- A command word, format `CMD40` (R60). -/
abbrev CommandWord := BitVec 40

/-- A response beat as it stands on the `rsp` port, format `RSP33` (R65). -/
abbrev BeatWord := BitVec 33

/-- The legal values of `bits`: 1 to 32 (R6 `BITS_MIN`, `BITS_MAX`; R83). A bounded type, so that `reflect` has no
value outside its domain. -/
abbrev Width := { n : Nat // 1 ≤ n ∧ n ≤ 32 }

/-- The width the engine always passes to the reflector: 32 (R6 `REFLECT_W`). -/
def Width.full : Width := ⟨32, by decide⟩

end Sys2Proof
end

