-- ==== Sys2Proof/Syntax.lean ====
section
/-! DEFINITION. The commands (R61), one constructor per row of `spec/opcode_table.json`, and the pseudo-commands (R70). -/

namespace Sys2Proof

/-- A command with the operands it uses (R60, R61, R62). Fields of the command word a command ignores are no part of it
(R63). -/
inductive Instr where
  /-- `INIT` opens a call (R110). -/
  | init
  /-- `WORD w` folds one Word into the register (R111). -/
  | word (w : Word)
  /-- `FINAL` returns the Result and closes the call (R112). -/
  | final
  /-- `REFLECT value, bits` returns `reflect(value, bits)` (R88); `bits` is the field's number as it stands (R62).
  DESIGN CHOICE, safe (log entry 14): a natural number. -/
  | reflect (value : Word) (bits : Nat)
  deriving DecidableEq, Repr

/-- The four mnemonics of R61. -/
inductive Mnemonic where
  | INIT | WORD | FINAL | REFLECT
  deriving DecidableEq, Repr

/-- The mnemonic of a command (R61). -/
def Instr.mnemonic : Instr → Mnemonic
  | .init => .INIT
  | .word _ => .WORD
  | .final => .FINAL
  | .reflect _ _ => .REFLECT

/-- The pseudo-command `CRC w0, ..., w(n-1)` (R70): one call of `calculate_crc`. -/
def crcCall (ws : List Word) : List Instr :=
  .init :: (ws.map .word ++ [.final])

/-- The pseudo-command `BLOCKCRC id, len` (R70). -/
def blockCrcCall (blockId blockLength : Word) : List Instr :=
  crcCall [blockId, blockLength]

end Sys2Proof
end

