-- ==== Sys2Proof/WellFormed.lean ====
section
/-! DEFINITION. Which terms of `Instr` are commands the block can be sent: those whose `bits` operand fits the 6-bit field
(R60). The reserved values of `bits` (R64) are well-formed. -/

namespace Sys2Proof

/-- The command fits its fields: `bits` is an unsigned number 0 to 63 (R60). -/
def Instr.wellFormed : Instr → Bool
  | .init => true
  | .word _ => true
  | .final => true
  | .reflect _ bits => decide (bits < 64)

end Sys2Proof
end

