-- ==== Sys2Proof/Decode.lean ====
section
/-! DEFINITION. The command word `CMD40` (R60), its decoder (R61, R63), the encoder and the opcode table, from the spec's
tables. -/

namespace Sys2Proof

/-- `op = cmd[39:38]` (R60). -/
def opField (c : CommandWord) : BitVec 2 := c.extractLsb' 38 2

/-- `bits = cmd[37:32]` (R60). -/
def bitsField (c : CommandWord) : BitVec 6 := c.extractLsb' 32 6

/-- `data = cmd[31:0]` (R60). -/
def dataField (c : CommandWord) : Word := c.extractLsb' 0 32

/-- The decoder: total, the command chosen by `op` alone, unused fields ignored (R61, R63). -/
def decode (c : CommandWord) : Instr :=
  match opField c with
  | 0b00#2 => .init
  | 0b01#2 => .word (dataField c)
  | 0b10#2 => .final
  | 0b11#2 => .reflect (dataField c) (bitsField c).toNat

/-- The table's view of the decoder: an instruction of `nbits` bits with value `w`. Every command word has 40 bits (R69) and
stands whole on the port, so a value that needs more is no command word (log entry 14). -/
def decodeTableWord (nbits w : Nat) : Option Instr :=
  let v := w % 2 ^ nbits
  if v < 2 ^ 40 then some (decode (BitVec.ofNat 40 v)) else none

/-- A command word from its three fields (R60). -/
def commandWord (op : BitVec 2) (bits : BitVec 6) (data : Word) : CommandWord :=
  (op ++ (bits ++ data)).cast (by decide)

/-- The canonical command word: zeros in every unused field (R63, R68). -/
def encode : Instr → CommandWord
  | .init => commandWord 0b00#2 0 0
  | .word w => commandWord 0b01#2 0 w
  | .final => commandWord 0b10#2 0 0
  | .reflect value bits => commandWord 0b11#2 (BitVec.ofNat 6 bits) value

/-- The bits of a command word its command uses, the others zero: what the canonical form of R63 keeps. -/
def usedFields (c : CommandWord) : CommandWord :=
  match opField c with
  | 0b00#2 => c &&& 0xC000000000#40
  | 0b01#2 => c &&& 0xC0FFFFFFFF#40
  | 0b10#2 => c &&& 0xC000000000#40
  | 0b11#2 => c

/-- The word is in the canonical form of R63. -/
def canonicalWord (c : CommandWord) : Bool := decide (usedFields c = c)

/-- One row of `spec/opcode_table.json`. -/
structure OpcodeRow where
  mnemonic : Mnemonic
  matchBits : CommandWord
  mask : CommandWord
  deriving DecidableEq, Repr

/-- `spec/opcode_table.json`, `match` and `mask` of its four rows. -/
def opcodeTable : List OpcodeRow :=
  [ ⟨.INIT, 0x0000000000#40, 0xC000000000#40⟩,
    ⟨.WORD, 0x4000000000#40, 0xC000000000#40⟩,
    ⟨.FINAL, 0x8000000000#40, 0xC000000000#40⟩,
    ⟨.REFLECT, 0xC000000000#40, 0xC000000000#40⟩ ]

/-- The row's pattern matches the word. -/
def OpcodeRow.accepts (r : OpcodeRow) (c : CommandWord) : Bool :=
  decide (c &&& r.mask = r.matchBits)

end Sys2Proof
end

