-- ==== Sys2Proof/Config.lean ====
section
/-! DEFINITION. The constants the spec fixes (R6), the one parameter of the machine (R7), and the free values (R11). -/

namespace Sys2Proof

/-- What an implementation fixes for the life of an instance, the same for every instance (R7, R25). -/
structure Config where
  /-- `POLYNOMIAL`: the generator constant, any 32-bit value (R7). -/
  polynomial : Word
  deriving DecidableEq, Repr

/-- `INIT_VALUE`: what the CRC Register is set to at the start of a call (R6). -/
def Config.initValue : Word := 0xFFFFFFFF

/-- `XOROUT`: the final inversion (R6). -/
def Config.xorOut : Word := 0xFFFFFFFF

/-- `STEPS_PER_WORD`: bit-steps per Word (R6). -/
def Config.stepsPerWord : Nat := 32

/-- One use of `any32` (R11, R89): whose it is (`stream`), which of that stream's uses it is (`index`), and what the command
and the state were. Plain data, so that uses that differ in any of these have unrelated values (log entry 4). -/
structure Draw where
  stream : Nat
  index : Nat
  config : Config
  crc : Option Word
  isOpen : Bool
  value : Word
  bits : Nat
  deriving DecidableEq, Repr

/-- `any32` (R11): the free 32-bit value of one use. DESIGN CHOICE, safe within one run and unsafe for claims that
compare runs that agree in the whole `Draw` (log entry 4): an opaque constant without a body, so
nothing can be proved of the value itself, nor of two uses that differ. -/
opaque Config.any32 : Draw → Word

end Sys2Proof
end

