-- ==== Sys2Proof/Machine/Build.lean ====
section
/-! DEFINITION. The parameter value of the instance that `State.reset` is. -/

namespace Sys2Proof.Machine

/-- The spec's default `POLYNOMIAL` (R7, D1). PRESUMED, unsafe (log entry 2): the source gives no value and the spec takes this
one from general knowledge (G1). `State.resetWith` is the reset state for any other value. -/
def defaultConfig : Config := { polynomial := 0x04C11DB7 }

end Sys2Proof.Machine
end

