-- ==== Sys2Proof/Machine/State.lean ====
section
/-! DEFINITION. What the machine holds (R20), what the host does to it (R13, R67, R150), why a step can stop, and reset (R31). -/

namespace Sys2Proof.Machine

/-- `kind` of a response beat (R65). -/
inductive BeatKind where
  /-- `kind = 0`: the Result of a call, made by `FINAL`. -/
  | result
  /-- `kind = 1`: the value of a `reflect`, made by `REFLECT`. -/
  | reflected
  deriving DecidableEq, Repr

/-- A response beat, `{kind, data}` (R65). -/
structure Beat where
  kind : BeatKind
  data : Word
  deriving DecidableEq, Repr

/-- What the host can do to the block (R13, R163); each is one step of a run (R158). -/
inductive Event where
  /-- A command word is accepted (R67). -/
  | command (c : CommandWord)
  /-- The host is ready for a beat: it takes the one at the head of `RSP`, if there is one (R67). -/
  | take
  /-- `rst = 1` at a rising edge (R150). -/
  | reset
  deriving DecidableEq, Repr

/-- The machine. `crc`, `isOpen` and `rsp` are the complete architectural state of one instance (R20); the other fields are
the model's own (log entries 1, 2, 4 and 12). -/
structure State where
  /-- `CRC`, the CRC Register; `none` where it is *invalid* (R20, R21, R22). DESIGN CHOICE, safe (log entry 3). -/
  crc : Option Word
  /-- `OPEN`: a call is in progress (R24). -/
  isOpen : Bool
  /-- `RSP`: the beats produced and not yet taken, oldest first (R20, R50). DEDUCED (log entry 7): unbounded. -/
  rsp : List Beat
  /-- The constant `POLYNOMIAL` (R25): an argument of the machine, which no step changes. DESIGN CHOICE, safe (log entry 2). -/
  config : Config
  /-- What the host does next, oldest first (R13). DESIGN CHOICE, safe (log entry 1). -/
  inputs : List Event
  /-- The beats the host has taken, oldest first (R67, R158). DESIGN CHOICE, safe (log entry 12). -/
  taken : List Beat
  /-- How many free values have been used (R11, R89). DESIGN CHOICE, safe within one run (log entry 4). -/
  draws : Nat
  /-- Whose free values these are: each of several instances has a stream of its own (R53). Only `any32` reads it and no step
  changes it; it is no identifier the block has (R138). DESIGN CHOICE, safe within one run (log entry 4). -/
  stream : Nat
  deriving DecidableEq, Repr

/-- Why a step faults: never. The block raises no exception (R130, R135), so no step can answer a fault.
DEDUCED, safe (log entry 15). -/
inductive Fault where
  deriving DecidableEq, Repr

/-- Why a step has no next state. -/
inductive Refusal where
  /-- The instruction has no meaning in this model yet; no arm of `exec` raises it. Safe. -/
  | notModelled (mnemonic : String)
  /-- `WordOutsideCall`: raised by `WORD` where no call is open (R132). Safe: no claim can be proved past it. -/
  | wordOutsideCall
  /-- `FinalOutsideCall`: raised by `FINAL` where no call is open (R132). Safe: no claim can be proved past it. -/
  | finalOutsideCall
  deriving DecidableEq, Repr

/-- The reset state of an instance built with these parameters (R31): `OPEN = 0`, `CRC` invalid, `RSP` empty. -/
def State.resetWith (config : Config) : State :=
  { crc := none, isOpen := false, rsp := [], config := config, inputs := [], taken := [], draws := 0, stream := 0 }

/-- The reset state of the instance built with the spec's default `POLYNOMIAL` (R7, R31). -/
def State.reset : State := State.resetWith defaultConfig

end Sys2Proof.Machine
end

