-- ==== Sys2Proof/Machine/Ops.lean ====
section
/-! DEFINITION. The named operations on the state (R11), and the response beat's bits (R65). The block has no memory, no
exception and no trap (R47, R130, R135), so there is no operation for one. -/

namespace Sys2Proof.Machine

/-- `CRC` as a rule may read it: it holds a value exactly when `OPEN = 1` (R22). DESIGN CHOICE, safe (log
entry 6), for a state with `OPEN = 1` and no value, which no run reaches. -/
def readCrc (s : State) : Option Word := if s.isOpen then s.crc else none

/-- `CRC <- v` (R11). -/
def writeCrc (v : Word) (s : State) : State := { s with crc := some v }

/-- `CRC <- invalid` (R22, R112). -/
def invalidateCrc (s : State) : State := { s with crc := none }

/-- `respond(kind, data)`: the beat is appended at the tail of `RSP` (R11). -/
def respond (kind : BeatKind) (data : Word) (s : State) : State :=
  { s with rsp := s.rsp ++ [{ kind := kind, data := data }] }

/-- The next `any32` (R11), as `REFLECT value, bits` in this state draws it: a free value. DESIGN CHOICE,
safe within one run and unsafe for claims that compare runs (log entry 4): it may depend on the stream, the use, the operands,
`CRC`, `OPEN` and `POLYNOMIAL`, and on nothing the host does besides (R67). -/
def nextDraw (value : Word) (bits : Nat) (s : State) : Word :=
  Config.any32
    { stream := s.stream, index := s.draws, config := s.config, crc := s.crc, isOpen := s.isOpen, value := value, bits := bits }

/-- That free value is used up. -/
def advanceDraw (s : State) : State := { s with draws := s.draws + 1 }

/-- The host takes the beat at the head of `RSP` (R67); with `RSP` empty, `rsp_valid = 0` and nothing is taken.
DEDUCED, safe (log entry 9). -/
def takeBeat (s : State) : State :=
  match s.rsp with
  | [] => s
  | b :: rest => { s with rsp := rest, taken := s.taken ++ [b] }

/-- Reset (R31, R150): `OPEN = 0`, `CRC` invalid, `RSP` empty; the constant, the host's side and the free values stay.
DESIGN CHOICE, safe (log entry 18). -/
def resetBlock (s : State) : State := { s with crc := none, isOpen := false, rsp := [] }

/-- `kind` as it stands in `rsp[32]` (R65). -/
def kindBit (k : BeatKind) : BitVec 1 :=
  match k with
  | .result => 0
  | .reflected => 1

/-- The 33 bits of a beat: `{kind, data}` (R65). -/
def beatBits (b : Beat) : BeatWord := (kindBit b.kind ++ b.data).cast (by decide)

/-- The beat a host reads from 33 bits (R65). -/
def beatOfBits (w : BeatWord) : Beat :=
  { kind := if w.getLsbD 32 then .reflected else .result, data := w.extractLsb' 0 32 }

end Sys2Proof.Machine
end

