-- ==== Sys2Proof/Machine/Flags.lean ====
section
/-! DEFINITION. The block's only flag, `OPEN` (R24). No command sets a condition code. -/

namespace Sys2Proof.Machine

/-- `OPEN <- 1` (R110). -/
def setOpen (s : State) : State := { s with isOpen := true }

/-- `OPEN <- 0` (R112). -/
def clearOpen (s : State) : State := { s with isOpen := false }

end Sys2Proof.Machine
end

