-- ==== Sys2Proof/Machine/Operands.lean ====
section
/-! DEFINITION. The operand forms (R60, R62): `data` is used as it stands; `bits` is a number, legal from 1 to 32 (R64, R83). -/

namespace Sys2Proof.Machine

/-- `bits` as a legal width of a reflection; none for the reserved values 0 and 33 and above (R64, R83). -/
def legalWidth (bits : Nat) : Option Width :=
  if h : 1 ≤ bits ∧ bits ≤ 32 then some ⟨bits, h⟩ else none

end Sys2Proof.Machine
end

