-- ==== Sys2Proof/Machine/Reflector.lean ====
section
/-! DEFINITION. The Bit Reflector: the function `reflect` (R80 to R87) and the command `REFLECT` (R88, R89). -/

namespace Sys2Proof.Machine

/-- The reference loop of R85 after its first `n` passes. -/
def reflectLoop (data : Word) (bits : Nat) : Nat → Word
  | 0 => 0
  | b + 1 =>
    if data.getLsbD b then reflectLoop data bits b ||| (1#32 <<< (bits - 1 - b)) else reflectLoop data bits b

/-- `reflect(data, bits)` (R80, R85), defined for `bits` from 1 to 32 only (R83). -/
def reflect (data : Word) (bits : Width) : Word := reflectLoop data bits.val bits.val

/-- `REFLECT value, bits` (R88); outside 1 to 32 the beat's data is a free value (R89). -/
def execReflect (value : Word) (bits : Nat) (s : State) : Host.Outcome State Fault Refusal :=
  match legalWidth bits with
  | some w => .next (respond .reflected (reflect value w) s)
  | none => .next (advanceDraw (respond .reflected (nextDraw value bits s) s))

end Sys2Proof.Machine
end

