-- ==== Sys2Proof/Machine/Engine.lean ====
section
/-! DEFINITION. The CRC Engine: the functions of R101 to R107, each for every `POLYNOMIAL`, and the commands `INIT`, `WORD`
and `FINAL` (R110 to R112). -/

namespace Sys2Proof.Machine

/-- `bitstep(crc, bit)` (R101). `top` is read before the shift; the constant is XORed into the shifted value. -/
def bitstep (polynomial crc : Word) (bit : Bool) : Word :=
  let top := crc.getLsbD 31
  let shifted := crc <<< 1
  if top ^^ bit then shifted ^^^ polynomial else shifted

/-- The inner loop of R102 after its first `n` passes: pass `i` takes `block[31-i]`. -/
def foldLoop (polynomial block crc : Word) : Nat → Word
  | 0 => crc
  | i + 1 => bitstep polynomial (foldLoop polynomial block crc i) (block.getLsbD (31 - i))

/-- `fold_word(crc, w)` (R102): the Word is reflected, then shifted in by 32 bit-steps. -/
def foldWord (polynomial crc w : Word) : Word :=
  foldLoop polynomial (reflect w Width.full) crc Config.stepsPerWord

/-- `finalize(crc)` (R104): the reflection, then the inversion. -/
def finalize (crc : Word) : Word := reflect crc Width.full ^^^ Config.xorOut

/-- `reg(ws)`: the register after the Words `ws`, before finalization (R107). -/
def register (polynomial : Word) (ws : List Word) : Word :=
  ws.foldl (foldWord polynomial) Config.initValue

/-- The outer loop of R105 after its first `n` passes; none where it would read a Word past the end (R43). -/
def engineLoop (polynomial : Word) (words : List Word) : Nat → Option Word
  | 0 => some Config.initValue
  | k + 1 =>
    match engineLoop polynomial words k, words[k]? with
    | some crc, some w => some (foldWord polynomial crc w)
    | _, _ => none

/-- `calculate_crc(words, length)` (R105); it has no value where `length` exceeds the sequence (R43, R131). -/
def calculateCrc (polynomial : Word) (words : List Word) (length : Nat) : Option Word :=
  (engineLoop polynomial words length).map finalize

/-- `INIT` (R110). -/
def execInit (s : State) : Host.Outcome State Fault Refusal :=
  .next (setOpen (writeCrc Config.initValue s))

/-- `WORD w` (R111); refused outside a call (R132). DEDUCED, safe (log entry 5). -/
def execWord (w : Word) (s : State) : Host.Outcome State Fault Refusal :=
  match readCrc s with
  | some crc => .next (writeCrc (foldWord s.config.polynomial crc w) s)
  | none => .refused .wordOutsideCall

/-- `FINAL` (R112); refused outside a call (R132). DEDUCED, safe (log entry 5). -/
def execFinal (s : State) : Host.Outcome State Fault Refusal :=
  match readCrc s with
  | some crc => .next (invalidateCrc (clearOpen (respond .result (finalize crc) s)))
  | none => .refused .finalOutsideCall

end Sys2Proof.Machine
end

