-- ==== Sys2Proof/Machine/Dispatch.lean ====
section
/-! DEFINITION. One arm per command (R61). -/

namespace Sys2Proof.Machine

def exec (i : Instr) (s : State) : Host.Outcome State Fault Refusal :=
  match i with
  | .init => Sys2Proof.Machine.execInit s
  | .word w => Sys2Proof.Machine.execWord w s
  | .final => Sys2Proof.Machine.execFinal s
  | .reflect value bits => Sys2Proof.Machine.execReflect value bits s

end Sys2Proof.Machine
end

