-- ==== Sys2Proof/Machine/Events.lean ====
section
/-! DEFINITION. What one event does (R13, R67, R150), and runs of several commands or events (R50, R158). -/

namespace Sys2Proof.Machine

/-- One event, whole (R154): the accepted command's rule, the host taking a beat, or reset. -/
def handleEvent (e : Event) (s : State) : Host.Outcome State Fault Refusal :=
  match e with
  | .command c => exec (decode c) s
  | .take => .next (takeBeat s)
  | .reset => .next (resetBlock s)

/-- The accepted command word at the front of what the host does next. -/
def offerCommand (c : CommandWord) (s : State) : State := { s with inputs := .command c :: s.inputs }

/-- Commands in acceptance order, each complete before the next (R50); it stops at the first refusal. -/
def execAll : List Instr → State → Host.Outcome State Fault Refusal
  | [], s => .next s
  | i :: is, s =>
    match exec i s with
    | .next t => execAll is t
    | .fault f => .fault f
    | .refused r => .refused r

/-- Events in order (R158); it stops at the first refusal. -/
def handleAll : List Event → State → Host.Outcome State Fault Refusal
  | [], s => .next s
  | e :: es, s =>
    match handleEvent e s with
    | .next t => handleAll es t
    | .fault f => .fault f
    | .refused r => .refused r

/-- `words` of a call (R41): the `data` of its `WORD` commands, in order. -/
def wordsOf : List Instr → List Word
  | [] => []
  | .word w :: is => w :: wordsOf is
  | _ :: is => wordsOf is

/-- `WORD` or `REFLECT`: what may stand between the `INIT` and the `FINAL` of one call (R41, R113). -/
def insideCall (i : Instr) : Bool :=
  match i with
  | .init => false
  | .word _ => true
  | .final => false
  | .reflect _ _ => true

/-- `FINAL` or `REFLECT`: the commands that make exactly one beat (R65). -/
def makesBeat (i : Instr) : Bool :=
  match i with
  | .init => false
  | .word _ => false
  | .final => true
  | .reflect _ _ => true

/-- No reset among the events. -/
def withoutReset (es : List Event) : Bool := es.all (fun e => decide (e ≠ .reset))

/-- The accepted commands among the events, in acceptance order (R67). -/
def commandsOf : List Event → List Instr
  | [] => []
  | .command c :: es => decode c :: commandsOf es
  | .take :: es => commandsOf es
  | .reset :: es => commandsOf es

end Sys2Proof.Machine
end

