-- ==== Sys2Proof/Machine/Step.lean ====
section
/-! DEFINITION. One step: the host's next event; with none, the idle block holds its state (R139). -/

namespace Sys2Proof.Machine

/-- One step of the machine. The block has no program counter (R27): the next command is the one the host offers.
With nothing offered the state is held: DEDUCED, safe (log entry 11). -/
def step (s : State) : Host.Outcome State Fault Refusal :=
  match s.inputs with
  | [] => .next s
  | e :: rest => handleEvent e { s with inputs := rest }

/-- The command word with value `w` is what the host offers next (log entry 1). -/
def State.withFetchWord (s : State) (nbits w : Nat) : State :=
  offerCommand (BitVec.ofNat 40 (w % 2 ^ nbits)) s

end Sys2Proof.Machine
end

