-- ==== Sys2Proof/Machine/Alternatives.lean ====
section
/-! DEFINITION. Other constructions the spec allows if they give the same values (R86, R114): the right-shifting form (R116)
and the informative bit-serial unit (R161). Neither is part of the machine's state (R30). -/

namespace Sys2Proof.Machine

/-- One bit-step of the right-shifting form, on the reflected constant and the reflected register (R116). -/
def rightStep (reflectedPolynomial r : Word) (b : Bool) : Word :=
  let feedback := r.getLsbD 0 ^^ b
  let shifted := r >>> 1
  if feedback then shifted ^^^ reflectedPolynomial else shifted

/-- `n` such steps with the bits `w[0]`, `w[1]`, and so on (R116). -/
def rightLoop (reflectedPolynomial w r : Word) : Nat → Word
  | 0 => r
  | i + 1 => rightStep reflectedPolynomial (rightLoop reflectedPolynomial w r i) (w.getLsbD i)

/-- A Word in the right-shifting form: 32 steps (R116). -/
def rightFold (reflectedPolynomial r w : Word) : Word := rightLoop reflectedPolynomial w r 32

/-- The same with the Word XORed in first, then 32 steps with `b = 0` (R116). -/
def rightFoldXored (reflectedPolynomial r w : Word) : Word := rightLoop reflectedPolynomial 0 (r ^^^ w) 32

/-- A whole call in the right-shifting form: no reflection left to do at the end (R116). -/
def rightCrc (reflectedPolynomial : Word) (ws : List Word) : Word :=
  ws.foldl (rightFold reflectedPolynomial) 0xFFFFFFFF ^^^ 0xFFFFFFFF

/-- The bit-serial unit: its registers `CRC`, `BLOCK`, `BITCNT`, `OPEN`, the register of `cmd_ready`, and the response queue it
samples into (R161). Informative, and no state of the machine (R30). -/
structure SerialUnit where
  crc : Word
  block : Word
  bitCount : BitVec 6
  isOpen : Bool
  cmdReady : Bool
  rsp : List Beat
  deriving DecidableEq, Repr

/-- `BLOCK <- reflect(w, 32)`, `BITCNT <- 0`, `cmd_ready <- 0` (R161). -/
def serialLoad (w : Word) (u : SerialUnit) : SerialUnit :=
  { u with block := reflect w Width.full, bitCount := 0, cmdReady := false }

/-- A beat sampled into the response queue (R161). -/
def serialRespond (kind : BeatKind) (data : Word) (u : SerialUnit) : SerialUnit :=
  { u with rsp := u.rsp ++ [{ kind := kind, data := data }] }

/-- The cycle that accepts a command (R161): `INIT` sets its registers, `WORD` loads the Word, `FINAL` samples the network
`reflect(CRC, 32) XOR 0xFFFFFFFF`, `REFLECT` the reflector's output. `draw` is what the reflector gives for a reserved `bits`
(R89). DESIGN CHOICE, safe (log entry 25): the rule has the unit check `OPEN` nowhere, so it does not. -/
def serialAccept (draw : Word) (i : Instr) (u : SerialUnit) : SerialUnit :=
  match i with
  | .init => { u with crc := Config.initValue, isOpen := true }
  | .word w => serialLoad w u
  | .final => serialRespond .result (finalize u.crc) { u with isOpen := false }
  | .reflect value bits =>
    match legalWidth bits with
    | some w => serialRespond .reflected (reflect value w) u
    | none => serialRespond .reflected draw u

/-- One further cycle (R161): after a `WORD`, while `BITCNT < 32`, one bit-step with `BLOCK[31]`; when `BITCNT = 32`,
`cmd_ready <- 1`. DESIGN CHOICE, safe (log entry 25): `cmd_ready` rises with the last bit-step, which is what `T_WORD = 33` and
`33n + 2` cycles for a call ask for. -/
def serialCycle (polynomial : Word) (u : SerialUnit) : SerialUnit :=
  if u.cmdReady then u
  else if u.bitCount.toNat < 32 then
    { u with
      crc := bitstep polynomial u.crc (u.block.getLsbD 31), block := u.block <<< 1, bitCount := u.bitCount + 1,
      cmdReady := decide (u.bitCount + 1 = 32#6) }
  else { u with cmdReady := decide (u.bitCount = 32#6) }

/-- `n` further cycles. -/
def serialCycles (polynomial : Word) : Nat → SerialUnit → SerialUnit
  | 0, u => u
  | n + 1, u => serialCycles polynomial n (serialCycle polynomial u)

/-- `T_WORD = 33`, `T_INIT = T_FINAL = T_REFLECT = 1` of this unit (R161), the accepting cycle included. -/
def serialLatency (i : Instr) : Nat :=
  match i with
  | .init => 1
  | .word _ => 33
  | .final => 1
  | .reflect _ _ => 1

/-- The unit is ready and holds what the block's state holds: `OPEN`, `RSP`, and `CRC` wherever it has a value (R20, R22). -/
def serialHolds (u : SerialUnit) (s : State) : Prop :=
  u.cmdReady = true ∧ u.isOpen = s.isOpen ∧ u.rsp = s.rsp ∧ ∀ c, readCrc s = some c → u.crc = c

end Sys2Proof.Machine
end

