-- ==== Sys2Proof/Machine/Instances.lean ====
section
/-! DEFINITION. `N_INST` independent instances of the block (R8, R53, R138): each its own state, one shared constant.
DEDUCED, safe (log entry 16). -/

namespace Sys2Proof.Machine

/-- The reset states of `n` instances of one build (R31, R53), each with a stream of free values of its own (log entry 4). -/
def resetInstances (n : Nat) (config : Config) : List State :=
  (List.range n).map (fun k => { State.resetWith config with stream := k })

/-- Instance `k` takes one step, the others none (R53); there is no instance `k` where `k` is too large. DESIGN CHOICE, safe
(log entry 21): a refusal at one instance ends the run of the whole list, since R132 marks the whole run and the spec says
nothing of the other instances. -/
def stepInstance (k : Nat) (m : List State) : Option (Host.Outcome (List State) Fault Refusal) :=
  match m[k]? with
  | none => none
  | some s =>
    match step s with
    | .next t => some (.next (m.set k t))
    | .fault f => some (.fault f)
    | .refused r => some (.refused r)

/-- All instances share the one constant (R25). -/
def sharesConfig (config : Config) (m : List State) : Bool := m.all (fun s => decide (s.config = config))

/-- No two instances draw from one stream of free values: the constant is the only thing they share (R53). -/
def ownStreams (m : List State) : Bool := decide (m.map (fun s => s.stream)).Nodup

end Sys2Proof.Machine
end

