-- ==== Sys2Proof/Machine/Ports.lean ====
section
/-! DEFINITION. The ports (R66) and what happens at one rising edge of `clk` (R67, R134, R150), in terms of the events the
machine's step takes. `cmd_ready` is the implementation's own timing (R32, R156), so it is an argument here: DESIGN CHOICE, unsafe for
claims that count edges (log entry 8). -/

namespace Sys2Proof.Machine

/-- The block's inputs at one rising edge (R66). -/
structure PortInputs where
  rst : Bool
  cmdValid : Bool
  cmd : CommandWord
  rspReady : Bool
  deriving DecidableEq, Repr

/-- The block's outputs at one rising edge (R66). The spec gives the `rsp` wires no value while `rsp_valid = 0`: none stands for
that: DESIGN CHOICE, safe (log entry 13). -/
structure PortOutputs where
  cmdReady : Bool
  rspValid : Bool
  rsp : Option BeatWord
  deriving DecidableEq, Repr

/-- The wire `cmd_ready`: 0 while `rst = 1` (R32, R150, C9), otherwise what the implementation's timing makes it. -/
def readyWire (cmdReady : Bool) (p : PortInputs) : Bool := !p.rst && cmdReady

/-- The block's outputs: `cmd_ready` as the wire has it, `rsp_valid = 1` exactly when `RSP` is not empty, and `rsp` is its head
(R32, R66, R67). -/
def portOutputs (cmdReady : Bool) (p : PortInputs) (s : State) : PortOutputs :=
  { cmdReady := readyWire cmdReady p, rspValid := !s.rsp.isEmpty, rsp := s.rsp.head?.map beatBits }

/-- A response beat is taken at this edge (R67). -/
def takesBeat (p : PortInputs) (s : State) : Bool := !p.rst && !s.rsp.isEmpty && p.rspReady

/-- A command word is accepted at this edge (R67). DESIGN CHOICE, safe (log entry 19): `cmd_ready` is free at every edge with
`rst = 0`. -/
def acceptsCommand (cmdReady : Bool) (p : PortInputs) : Bool := !p.rst && p.cmdValid && readyWire cmdReady p

/-- The events of one edge: reset wins over everything else (R134, R150); the beat taken is the one that stood at the head
before the edge, so it comes first: DEDUCED, safe (log entry 10). -/
def edgeEvents (cmdReady : Bool) (p : PortInputs) (s : State) : List Event :=
  if p.rst then [.reset]
  else
    (if takesBeat p s then [.take] else []) ++
      (if acceptsCommand cmdReady p then [.command p.cmd] else [])

/-- One rising edge. -/
def clockEdge (cmdReady : Bool) (p : PortInputs) (s : State) : Host.Outcome State Fault Refusal :=
  handleAll (edgeEvents cmdReady p s) s

/-- Several rising edges, each with the `cmd_ready` of that edge. -/
def clockEdges : List (Bool × PortInputs) → State → Host.Outcome State Fault Refusal
  | [], s => .next s
  | (ready, p) :: es, s =>
    match clockEdge ready p s with
    | .next t => clockEdges es t
    | .fault f => .fault f
    | .refused r => .refused r

/-- The events that occur at those edges, up to the first refusal. -/
def edgeTrace : List (Bool × PortInputs) → State → List Event
  | [], _ => []
  | (ready, p) :: es, s =>
    edgeEvents ready p s ++
      match clockEdge ready p s with
      | .next t => edgeTrace es t
      | .fault _ => []
      | .refused _ => []

/-- How many beats stand in `RSP` after this edge's take. -/
def beatsLeft (p : PortInputs) (s : State) : Nat :=
  if takesBeat p s then s.rsp.length - 1 else s.rsp.length

/-- There is room for one more beat in a queue of that depth. DESIGN CHOICE, safe (log entry 20): the room is counted after the
take, so a full queue whose head is taken at this very edge has room; R8, R156 and D23 leave that open. -/
def hasRoom (depth : Nat) (p : PortInputs) (s : State) : Bool := decide (beatsLeft p s < depth)

/-- What an implementation of depth `RSP_DEPTH` keeps to: `cmd_ready = 0` while `rst = 1` (R150), and no `FINAL` or `REFLECT`
accepted without room (R8, R156; what room is: log entry 20). -/
def cmdReadyKeeps (depth : Nat) (cmdReady : Bool) (p : PortInputs) (s : State) : Bool :=
  !cmdReady || (!p.rst && (!(p.cmdValid && makesBeat (decode p.cmd)) || hasRoom depth p s))

/-- What the host keeps to from one edge to the next: a command offered and not accepted stays offered (R67, R163). DESIGN
CHOICE, safe (log entry 22): an edge with `rst = 1` ends that duty, since R152 and R163 want `INIT` first afterwards and no rule
says which of the two holds. -/
def hostHolds (cmdReady : Bool) (p p' : PortInputs) : Bool :=
  !(!p.rst && p.cmdValid && !cmdReady) || (p'.cmdValid && decide (p'.cmd = p.cmd))

/-- The host keeps to that over a whole sequence of edges. -/
def hostHoldsThroughout : List (Bool × PortInputs) → Bool
  | [] => true
  | [_] => true
  | (ready, p) :: (ready', p') :: es => hostHolds ready p p' && hostHoldsThroughout ((ready', p') :: es)

end Sys2Proof.Machine
end

