-- ==== Sys2Proof/Machine/Runs.lean ====
section
/-! DEFINITION. Runs without an end (R158): an unbounded sequence of events or of clock edges, when a call is complete or abandoned,
and the fairness a model assumes (R157). A sequence is a function of the position and never a field of State (log entry 24). -/

namespace Sys2Proof.Machine

/-- The outcome after the first `n` events of a sequence; a refusal stays (R132). -/
def eventRun (es : Nat → Event) (s : State) : Nat → Host.Outcome State Fault Refusal
  | 0 => .next s
  | n + 1 =>
    match eventRun es s n with
    | .next t => handleEvent (es n) t
    | .fault f => .fault f
    | .refused r => .refused r

/-- The sequence is an infinite run (R158): it is never refused. -/
def goesOn (es : Nat → Event) (s : State) : Prop := ∀ n, ∃ t, eventRun es s n = .next t

/-- An accepted `INIT` (R158). -/
def opensCall (e : Event) : Bool :=
  match e with
  | .command c => decide (decode c = .init)
  | .take => false
  | .reset => false

/-- An accepted `FINAL` (R158). -/
def closesCall (e : Event) : Bool :=
  match e with
  | .command c => decide (decode c = .final)
  | .take => false
  | .reset => false

/-- An event that leaves a call in progress: `WORD`, `REFLECT`, or the host taking a beat (R41, R158). -/
def continuesCall (e : Event) : Bool :=
  match e with
  | .command c => insideCall (decode c)
  | .take => true
  | .reset => false

/-- The call that began with the `INIT` at `n` is still in progress before the event at `m` (R158). -/
def inProgress (es : Nat → Event) (n m : Nat) : Prop :=
  n < m ∧ opensCall (es n) = true ∧ ∀ j, n < j → j < m → continuesCall (es j) = true

/-- The events of a call strictly between `n` and `m`. -/
def eventsBetween (es : Nat → Event) (n m : Nat) : List Event := (List.range' (n + 1) (m - (n + 1))).map es

/-- That call is abandoned at `m`: an `INIT` or a reset comes before its `FINAL` (R158). -/
def callAbandoned (es : Nat → Event) (n m : Nat) : Prop :=
  inProgress es n m ∧ (opensCall (es m) = true ∨ es m = .reset)

/-- That call is complete: its `FINAL` is the event at `m`, and before the event at `k` the host has taken, no reset in between,
the beat that `FINAL` pushed, which is `b` (R158). The beat's place among all beats is one past those made before it. -/
def callComplete (es : Nat → Event) (s : State) (n m k : Nat) (b : Beat) : Prop :=
  inProgress es n m ∧ closesCall (es m) = true ∧ m < k ∧ (∀ j, m < j → j < k → es j ≠ .reset) ∧
    ∃ t u : State, eventRun es s m = .next t ∧ eventRun es s k = .next u ∧
      u.taken[t.taken.length + t.rsp.length]? = some b

/-- The outcome after the first `n` edges of a sequence of edges, each with the `cmd_ready` of that edge. -/
def edgeRun (f : Nat → Bool × PortInputs) (s : State) : Nat → Host.Outcome State Fault Refusal
  | 0 => .next s
  | n + 1 =>
    match edgeRun f s n with
    | .next t => clockEdge (f n).1 (f n).2 t
    | .fault x => .fault x
    | .refused r => .refused r

/-- The host eventually takes every beat offered (R157, R163): wherever one stands in `RSP`, there is a later edge at which the
host is ready and there is no reset. -/
def hostTakesEventually (f : Nat → Bool × PortInputs) (s : State) : Prop :=
  ∀ n t, edgeRun f s n = .next t → t.rsp ≠ [] →
    ∃ m, n ≤ m ∧ (f m).2.rst = false ∧ (f m).2.rspReady = true

/-- Weak fairness of `cmd_ready`, the one timing assumption a model makes (R157): if from some edge on a command is offered at
every edge, there is no reset and the queue has room, then `cmd_ready` is 1 at one of them. DESIGN CHOICE, safe (log entry 23): a
queue without room may hold back every command (R156: "possibly all commands"). -/
def weaklyFair (depth : Nat) (f : Nat → Bool × PortInputs) (s : State) : Prop :=
  ∀ n, (∀ m, n ≤ m → ∃ t, edgeRun f s m = .next t ∧
      (f m).2.rst = false ∧ (f m).2.cmdValid = true ∧ hasRoom depth (f m).2 t = true) →
    ∃ m, n ≤ m ∧ (f m).1 = true

end Sys2Proof.Machine
end

