-- ==== Sys2Proof/Machine/TextForm.lean ====
section
/-! DEFINITION. The text form of commands (R68): one command a line, `;` starts a comment. Written over lists of characters.
DESIGN CHOICE, safe (log entry 17): one fixed spelling, but that the decimal `bits` may have leading zeros. -/

namespace Sys2Proof.Machine

/-- The hexadecimal digits the spec's own tables print. -/
def hexDigits : List Char := ['0', '1', '2', '3', '4', '5', '6', '7', '8', '9', 'A', 'B', 'C', 'D', 'E', 'F']

/-- The value of a digit in a base up to 16. -/
def digitValue (base : Nat) (c : Char) : Option Nat :=
  let v := hexDigits.idxOf c
  if v < base then some v else none

/-- The number a non-empty list of digits spells. -/
def numberOf (base : Nat) : List Char → Option Nat
  | [] => none
  | cs => cs.foldl (fun acc c => do return (← acc) * base + (← digitValue base c)) (some 0)

/-- A 32-bit value as 8 hexadecimal digits (R68, log entry 17). -/
def hexWord (v : Word) : List Char :=
  [7, 6, 5, 4, 3, 2, 1, 0].map (fun k => hexDigits.getD (v.toNat / 16 ^ k % 16) '0')

/-- A number below 100 in decimal; `bits` has at most two digits (R60, R68), written without leading zeros (log entry 17). -/
def decimal (n : Nat) : List Char :=
  if n < 10 then [hexDigits.getD n '0'] else [hexDigits.getD (n / 10) '0', hexDigits.getD (n % 10) '0']

/-- The text of a command (R68). -/
def textOf : Instr → List Char
  | .init => ['I', 'N', 'I', 'T']
  | .word w => ['W', 'O', 'R', 'D', ' ', '0', 'x'] ++ hexWord w
  | .final => ['F', 'I', 'N', 'A', 'L']
  | .reflect value bits =>
    ['R', 'E', 'F', 'L', 'E', 'C', 'T', ' ', '0', 'x'] ++ hexWord value ++ [',', ' '] ++ decimal bits

/-- The line without its comment and the spaces before it (R68). -/
def stripComment (line : List Char) : List Char :=
  ((line.takeWhile (· != ';')).reverse.dropWhile (· == ' ')).reverse

/-- A 32-bit value from exactly 8 hexadecimal digits. -/
def parseWord (cs : List Char) : Option Word :=
  if cs.length = 8 then (numberOf 16 cs).map (BitVec.ofNat 32) else none

/-- The command a line spells (R68); none where the line has not that form. DESIGN CHOICE, safe (log entry 17): `bits` is read as any
non-empty row of decimal digits below 64 in value, leading zeros allowed (`032` is 32), since R68 says only that it is decimal; and a
line never holds a pseudo-command (R70), since R68 has one command a line. -/
def parseLine (line : List Char) : Option Instr :=
  match stripComment line with
  | ['I', 'N', 'I', 'T'] => some .init
  | ['F', 'I', 'N', 'A', 'L'] => some .final
  | 'W' :: 'O' :: 'R' :: 'D' :: ' ' :: '0' :: 'x' :: cs => (parseWord cs).map .word
  | 'R' :: 'E' :: 'F' :: 'L' :: 'E' :: 'C' :: 'T' :: ' ' :: '0' :: 'x' :: cs =>
    match parseWord (cs.take 8), cs.drop 8 with
    | some v, ',' :: ' ' :: ds =>
      match numberOf 10 ds with
      | some bits => if bits < 64 then some (.reflect v bits) else none
      | none => none
    | _, _ => none
  | _ => none

/-- The canonical command word a line assembles to (R63, R68). -/
def assembleLine (line : List Char) : Option CommandWord := (parseLine line).map encode

end Sys2Proof.Machine
end

