-- ==== Sys2Proof/Safety.lean ====
section
/-! DEFINITION. What claims speak of: the invariant of the state (R22), which commands are legal where (R88, R110 to R112),
and a host that brackets its Words (R132, R152). -/

namespace Sys2Proof.Machine

/-- `CRC` holds a value exactly when `OPEN = 1` (R22). -/
def crcValid (s : State) : Bool := s.isOpen == s.crc.isSome

/-- The command is legal in this state: `INIT` and `REFLECT` everywhere, `WORD` and `FINAL` only when `OPEN = 1`
(R88, R110, R111, R112). -/
def legal (i : Instr) (s : State) : Bool :=
  match i with
  | .init => true
  | .word _ => s.isOpen
  | .final => s.isOpen
  | .reflect _ _ => true

/-- A host that, from a block whose `OPEN` is `opened`, issues `INIT` before any `WORD` or `FINAL`, and again after every
`FINAL` and every reset (R152). -/
def bracketed (opened : Bool) : List Event → Bool
  | [] => true
  | .command c :: es =>
    match decode c with
    | .init => bracketed true es
    | .word _ => opened && bracketed opened es
    | .final => opened && bracketed false es
    | .reflect _ _ => bracketed opened es
  | .take :: es => bracketed opened es
  | .reset :: es => bracketed false es

/-- The commands as events: their canonical words, accepted in order. -/
def offered (is : List Instr) : List Event := is.map (fun i => .command (encode i))

end Sys2Proof.Machine
end

