-- ==== Sys2Proof/Certificates/Slice0/Obligations.lean ====
section
/-! DEFINITION. What is claimed of the model, each from a rule of spec/. No statement rests on the value of `POLYNOMIAL` in
`State.reset`, on a free value, or on the reset value of a field of the model's own. -/

open Sys2Proof Sys2Proof.Machine

-- Encoding

/-- R60, R61, R62: every word of each `op` decodes to that row's command, its operands the fields as they stand and every
unused field ignored. -/
def Obligations.DecodeReadsTheFields : Prop :=
  ∀ (bits : BitVec 6) (data : Word),
    decode (commandWord 0b00#2 bits data) = .init ∧
    decode (commandWord 0b01#2 bits data) = .word data ∧
    decode (commandWord 0b10#2 bits data) = .final ∧
    decode (commandWord 0b11#2 bits data) = .reflect data bits.toNat

/-- R63: decoding is total, and `match` and `mask` of the opcode table choose the command: exactly one row accepts a word,
and it is the decoded command's. -/
def Obligations.OneTableRowAcceptsEachWord : Prop :=
  ∀ c : CommandWord,
    (∃! r, r ∈ opcodeTable ∧ r.accepts c = true) ∧
    ∀ r ∈ opcodeTable, r.accepts c = true → r.mnemonic = (decode c).mnemonic

/-- R63: encoding a decoded word gives the word with zeros in the fields its command does not use, its canonical form; so
only those bits are dropped. -/
def Obligations.DecodingDropsOnlyUnusedFields : Prop :=
  ∀ c : CommandWord, encode (decode c) = usedFields c

/-- R60, R61, R62, R63: the decoder reads every well-formed command back from its encoding, and every word decodes to a
well-formed command. -/
def Obligations.DecodeOfEncodeIsIdentity : Prop :=
  (∀ i : Instr, i.wellFormed = true → decode (encode i) = i) ∧
  ∀ c : CommandWord, (decode c).wellFormed = true

/-- A sanity statement: words written out in the spec's own text and vectors (R68, V-X3, V-X6, V-X10, V-X14, P3) decode to
the commands they stand for. -/
def Obligations.WordsWrittenOutInTheSpecDecode : Prop :=
  decode 0x0000000000#40 = .init ∧ decode 0x3FFFFFFFFF#40 = .init ∧
  decode 0x40DEADBEEF#40 = .word 0xDEADBEEF#32 ∧ decode 0x7FFFFFFFFF#40 = .word 0xFFFFFFFF#32 ∧
  decode 0x8000000000#40 = .final ∧ decode 0x9512345678#40 = .final ∧
  decode 0xE012345678#40 = .reflect 0x12345678#32 32 ∧ decode 0xD0FFFF1234#40 = .reflect 0xFFFF1234#32 16

/-- R68: the canonical text of every well-formed command reads back as that command, also with spaces and a comment after
it. (The one spelling of that text is the model's choice, log entry 17.) -/
def Obligations.TextFormReadsBack : Prop :=
  ∀ (i : Instr) (spaces : Nat) (comment : List Char), i.wellFormed = true →
    parseLine (textOf i) = some i ∧
    parseLine (textOf i ++ List.replicate spaces ' ' ++ ';' :: comment) = some i

-- The step

/-- R13, R67, with the host's acts as a list in State, the model's choice (log entry 1): where an accepted command word is
the host's next event, the step is `exec` of the decoded command, that event being used up; `withFetchWord` places exactly
such an event. -/
def Obligations.StepRunsTheAcceptedCommand : Prop :=
  (∀ (s : State) (c : CommandWord) (rest : List Event), s.inputs = .command c :: rest →
    step s = exec (decode c) { s with inputs := rest }) ∧
  ∀ (s : State) (w : Nat), w < 2 ^ 40 →
    decodeTableWord 40 w = some (decode (BitVec.ofNat 40 w)) ∧
    step (s.withFetchWord 40 w) = exec (decode (BitVec.ofNat 40 w)) s

/-- R67, R139, R150: the other steps. An idle block holds its state; a take moves the head of `RSP` to the host and nothing
else, and takes nothing where `RSP` is empty; a reset clears `OPEN`, makes `CRC` invalid and empties `RSP`, and nothing
else. -/
def Obligations.StepRunsTheHostsOtherEvents : Prop :=
  (∀ s : State, s.inputs = [] → step s = .next s) ∧
  (∀ (s : State) (rest : List Event) (b : Beat) (bs : List Beat), s.inputs = .take :: rest → s.rsp = b :: bs →
    step s = .next { s with inputs := rest, rsp := bs, taken := s.taken ++ [b] }) ∧
  (∀ (s : State) (rest : List Event), s.inputs = .take :: rest → s.rsp = [] →
    step s = .next { s with inputs := rest }) ∧
  (∀ (s : State) (rest : List Event), s.inputs = .reset :: rest →
    step s = .next { s with inputs := rest, crc := none, isOpen := false, rsp := [] })

/-- R50, R158: a run of as many steps as the host has events is those events in order, each complete before the next. The
machine stops at the first refusal. -/
def Obligations.RunIsTheEventSequence : Prop :=
  ∀ (es rest : List Event) (s : State),
    Host.Core.run core es.length { s with inputs := es ++ rest } =
      handleAll es { s with inputs := rest }

-- Reset and the invariant

/-- R31: after reset no call is open, `CRC` is invalid, `RSP` is empty and `POLYNOMIAL` is what it was: in the reset state
of an instance built with any `POLYNOMIAL`, of which the machine's is one, and after the reset event in any state. -/
def Obligations.ResetLeavesNoCallAndNoBeats : Prop :=
  (∀ k : Config, (State.resetWith k).isOpen = false ∧ (State.resetWith k).crc = none ∧ (State.resetWith k).rsp = [] ∧
    (State.resetWith k).config = k) ∧
  (∃ k : Config, core.reset = State.resetWith k) ∧
  ∀ s : State, ∃ t : State, handleEvent .reset s = .next t ∧
    t.isOpen = false ∧ t.crc = none ∧ t.rsp = [] ∧ t.config = s.config

/-- R22 holds at reset: no call is open and `CRC` holds no value. -/
def Obligations.ResetHasValidCrc : Prop := crcValid State.reset = true

/-- R22: every step keeps "`CRC` holds a value exactly when `OPEN = 1`". -/
def Obligations.StepKeepsCrcValid : Prop :=
  ∀ s t : State, crcValid s = true → step s = .next t → crcValid t = true

/-- R25: no step, a reset included, changes `POLYNOMIAL`. -/
def Obligations.NoStepChangesPolynomial : Prop :=
  ∀ s t : State, step s = .next t → t.config = s.config

-- The commands

/-- R110: in every state `INIT` sets `CRC` to all-ones and `OPEN` to 1 and changes nothing else; so a second `INIT` changes
nothing. -/
def Obligations.InitOpensACall : Prop :=
  ∀ s : State,
    exec .init s = .next { s with crc := some 0xFFFFFFFF, isOpen := true } ∧
    ∀ t : State, exec .init s = .next t → exec .init t = .next t

/-- R102, R111: inside a call `WORD w` replaces `CRC` by `fold_word(CRC, w)`, which is 32 bit-steps with `block[31]`,
`block[30]`, ..., `block[0]` of `block = reflect(w, 32)`, and changes nothing else; with `OPEN = 0` it is refused,
WordOutsideCall. -/
def Obligations.WordFoldsInsideACallOnly : Prop :=
  (∀ (s : State) (w crc : Word), s.isOpen = true → s.crc = some crc →
    exec (.word w) s = .next { s with crc := some (foldWord s.config.polynomial crc w) } ∧
    foldWord s.config.polynomial crc w =
      (List.range 32).foldl
        (fun r i => bitstep s.config.polynomial r ((reflect w Width.full).getLsbD (31 - i))) crc) ∧
  ∀ (s : State) (w : Word), s.isOpen = false → exec (.word w) s = .refused .wordOutsideCall

/-- R112: inside a call `FINAL` pushes one beat of kind 0 whose bit `i` is the complement of `CRC[31-i]`, clears `OPEN`,
makes `CRC` invalid, and changes nothing else; with `OPEN = 0` it is refused, FinalOutsideCall. -/
def Obligations.FinalReturnsInsideACallOnly : Prop :=
  (∀ (s : State) (crc : Word), s.isOpen = true → s.crc = some crc →
    ∃ d : Word,
      exec .final s = .next { s with
        crc := none, isOpen := false, rsp := s.rsp ++ [{ kind := .result, data := d }] } ∧
      d = finalize crc ∧
      ∀ i < 32, d.getLsbD i = !crc.getLsbD (31 - i)) ∧
  ∀ s : State, s.isOpen = false → exec .final s = .refused .finalOutsideCall

/-- R88, R89: in every state, `REFLECT` pushes exactly one beat of kind 1. With `1 ≤ bits ≤ 32` its data is `reflect(value,
bits)`, whose bit `i` is `value[bits-1-i]` below `bits` and 0 above, and nothing else changes. With any other `bits` its data
is some value, which the statement leaves open, and nothing else the spec gives the machine changes. Two parts of the second
clause are the model's choice: `draws` is the model's own counter (log entry 4), and `bits` of 64 and more, which no command
word has, is treated as R89's 33 to 63 (log entry 14). -/
def Obligations.ReflectAnswersInEveryState : Prop :=
  (∀ (s : State) (value : Word) (bits : Nat) (low : 1 ≤ bits) (high : bits ≤ 32),
    exec (.reflect value bits) s = .next { s with
      rsp := s.rsp ++ [{ kind := .reflected, data := reflect value ⟨bits, low, high⟩ }] } ∧
    ∀ i < 32, (reflect value ⟨bits, low, high⟩).getLsbD i = (decide (i < bits) && value.getLsbD (bits - 1 - i))) ∧
  ∀ (s : State) (value : Word) (bits : Nat), bits = 0 ∨ 33 ≤ bits →
    ∃ d : Word,
      exec (.reflect value bits) s = .next { s with
        rsp := s.rsp ++ [{ kind := .reflected, data := d }], draws := s.draws + 1 }

/-- R88, R110, R111, R112, R132: where `CRC` is valid, a command answers a next state exactly where it is legal, and is
refused exactly as R132 says otherwise. -/
def Obligations.CommandsCompleteExactlyWhereLegal : Prop :=
  ∀ (i : Instr) (s : State), crcValid s = true →
    ((∃ t, exec i s = .next t) ↔ legal i s = true) ∧
    ∀ r : Refusal, exec i s = .refused r ↔
      s.isOpen = false ∧ ((∃ w, i = .word w ∧ r = .wordOutsideCall) ∨ (i = .final ∧ r = .finalOutsideCall))

/-- R65, R50: `FINAL` and `REFLECT` each make exactly one beat, of kind 0 and 1, at the tail of `RSP`; `INIT` and `WORD`
make none; on the port `kind` is bit 32 and `data` bits 31 to 0, and the host reads the beat back from them. -/
def Obligations.ResponseBeats : Prop :=
  (∀ (i : Instr) (s t : State), exec i s = .next t →
    ∃ bs : List Beat, t.rsp = s.rsp ++ bs ∧ bs.length = (if makesBeat i then 1 else 0) ∧
      ∀ b ∈ bs, b.kind = (if i = .final then .result else .reflected)) ∧
  ∀ b : Beat,
    ((beatBits b).getLsbD 32 = true ↔ b.kind = .reflected) ∧
    (∀ i < 32, (beatBits b).getLsbD i = b.data.getLsbD i) ∧
    beatOfBits (beatBits b) = b

-- Calls

/-- What R23 derives from R110, R111 and R88: within a call `CRC` after `INIT` and the call's Words is their fold from
all-ones, whatever the state before `INIT` and whatever `REFLECT` commands stand in between. -/
def Obligations.RegisterWithinACall : Prop :=
  ∀ (s : State) (cs : List Instr), cs.all insideCall = true →
    ∃ t : State, execAll (.init :: cs) s = .next t ∧ t.isOpen = true ∧
      t.crc = some ((wordsOf cs).foldl (foldWord s.config.polynomial) 0xFFFFFFFF)

/-- The first part of what R113 derives from R105, R110, R111, R112 and R88: from every state, `INIT`, any `WORD` and
`REFLECT` commands, then `FINAL` are none of them refused; the last beat pushed is `{0, calculate_crc}` of the call's Words,
the beats before it are the `REFLECT`s', and the call is closed. -/
def Obligations.CallReturnsCalculateCrc : Prop :=
  ∀ (s : State) (cs : List Instr), cs.all insideCall = true →
    ∃ (t : State) (reflected : List Beat) (d : Word),
      execAll (.init :: (cs ++ [.final])) s = .next t ∧
      calculateCrc s.config.polynomial (wordsOf cs) (wordsOf cs).length = some d ∧
      t.rsp = s.rsp ++ reflected ++ [{ kind := .result, data := d }] ∧
      (∀ b ∈ reflected, b.kind = .reflected) ∧ reflected.length + (wordsOf cs).length = cs.length ∧
      t.isOpen = false ∧ t.crc = none

/-- The converse that R113 derives: a `FINAL` accepted in a run of commands that began with no call open closes a call of
that run, and its beat is `calculate_crc` of the Words since the last `INIT`. -/
def Obligations.EveryResultComesFromACall : Prop :=
  ∀ (s t u : State) (is : List Instr), s.isOpen = false →
    execAll is s = .next t → exec .final t = .next u →
    ∃ (before inside : List Instr) (d : Word),
      is = before ++ .init :: inside ∧ inside.all insideCall = true ∧
      calculateCrc s.config.polynomial (wordsOf inside) (wordsOf inside).length = some d ∧
      u.rsp = t.rsp ++ [{ kind := .result, data := d }]

/-- R108, R113: the Result of a call does not depend on the state before its `INIT`, nor on the `REFLECT` commands inside it
(R155): two calls with the same Words on instances of one build end with the same beat. -/
def Obligations.ResultIndependentOfEarlierHistory : Prop :=
  ∀ (s₁ s₂ t₁ t₂ : State) (cs₁ cs₂ : List Instr), s₁.config = s₂.config →
    cs₁.all insideCall = true → cs₂.all insideCall = true → wordsOf cs₁ = wordsOf cs₂ →
    execAll (.init :: (cs₁ ++ [.final])) s₁ = .next t₁ → execAll (.init :: (cs₂ ++ [.final])) s₂ = .next t₂ →
    t₁.rsp.getLast? = t₂.rsp.getLast?

/-- R67, R50, R156: without a reset, a run is the run of its accepted commands alone: when the host takes its beats changes
neither `CRC` nor `OPEN`, and every beat made is taken or still in `RSP`, in order, none lost. (`taken` is the model's own
field, log entry 12; a take of an empty queue does nothing, log entry 9; that a free value does not depend on when beats are
taken is the model's choice, log entry 4.) -/
def Obligations.RunDependsOnAcceptedCommandsOnly : Prop :=
  ∀ (es : List Event) (s : State), withoutReset es = true →
    (∀ t : State, handleAll es s = .next t →
      ∃ u : State, execAll (commandsOf es) s = .next u ∧ t.crc = u.crc ∧ t.isOpen = u.isOpen ∧
        t.taken ++ t.rsp = s.taken ++ u.rsp) ∧
    ∀ r : Refusal, handleAll es s = .refused r ↔ execAll (commandsOf es) s = .refused r

/-- R132, R152: a host that always brackets its Words with `INIT` and `FINAL` is never refused, whatever it does besides. -/
def Obligations.BracketedHostIsNeverRefused : Prop :=
  ∀ (es : List Event) (s : State), crcValid s = true → bracketed s.isOpen es = true →
    ∃ t : State, handleAll es s = .next t ∧ crcValid t = true

/-- R158, R163: the pseudo-command `CRC` (R70) issued in any state, then as many takes as there are beats: the host has
every older beat and then the Result, nothing is left in `RSP` and no call is open. (What the host has is the model's own
field `taken`, log entry 12.) -/
def Obligations.CompletedCallIsDelivered : Prop :=
  ∀ (s : State) (ws : List Word),
    ∃ (t : State) (d : Word),
      handleAll (offered (crcCall ws) ++ List.replicate (s.rsp.length + 1) .take) s = .next t ∧
      calculateCrc s.config.polynomial ws ws.length = some d ∧
      t.taken = s.taken ++ s.rsp ++ [{ kind := .result, data := d }] ∧ t.rsp = [] ∧ t.isOpen = false

-- The function layer

/-- R80, R82: `reflect` bit by bit, and below `2^bits`. -/
def Obligations.ReflectMirrorsTheLowBits : Prop :=
  ∀ (data : Word) (bits : Width),
    (∀ i < 32, (reflect data bits).getLsbD i = (decide (i < bits.val) && data.getLsbD (bits.val - 1 - i))) ∧
    (reflect data bits).toNat < 2 ^ bits.val

/-- R81: input bits at positions `bits` and above do not matter. -/
def Obligations.ReflectIgnoresHighBits : Prop :=
  ∀ (data : Word) (bits : Width), reflect data bits = reflect (BitVec.ofNat 32 (data.toNat % 2 ^ bits.val)) bits

/-- The table of laws of R87: the source's own, and those the spec derives from R80 and R81. -/
def Obligations.LawsOfReflect : Prop :=
  (∀ (x : Word) (bits : Width), x.toNat < 2 ^ bits.val → reflect (reflect x bits) bits = x) ∧
  (∀ bits : Width, reflect 0 bits = 0) ∧
  (∀ bits : Width, reflect 1 bits = BitVec.ofNat 32 (2 ^ (bits.val - 1))) ∧
  reflect 0xFFFFFFFF Width.full = 0xFFFFFFFF ∧
  (∀ (x : Word) (bits : Width), reflect (reflect x bits) bits = BitVec.ofNat 32 (x.toNat % 2 ^ bits.val)) ∧
  (∀ (bits : Width) (k : Nat), k < bits.val →
    reflect (BitVec.ofNat 32 (2 ^ k)) bits = BitVec.ofNat 32 (2 ^ (bits.val - 1 - k))) ∧
  (∀ x : Word, reflect x ⟨1, by decide⟩ = if x.getLsbD 0 then 1 else 0) ∧
  (∀ (a b : Word) (bits : Width), reflect (a ^^^ b) bits = reflect a bits ^^^ reflect b bits) ∧
  (∀ (x : Word) (bits : Width) (i : Nat), i < bits.val → (reflect x bits).getLsbD (bits.val - 1 - i) = x.getLsbD i) ∧
  (∀ x : Word, reflect (reflect x Width.full) Width.full = x) ∧
  Function.Bijective (fun x : Word => reflect x Width.full)

/-- R101: a bit-step, bit by bit. -/
def Obligations.BitstepBitByBit : Prop :=
  ∀ (p crc : Word) (bit : Bool),
    (bitstep p crc bit).getLsbD 0 = ((crc.getLsbD 31 ^^ bit) && p.getLsbD 0) ∧
    ∀ j, 1 ≤ j → j ≤ 31 →
      (bitstep p crc bit).getLsbD j = (crc.getLsbD (j - 1) ^^ ((crc.getLsbD 31 ^^ bit) && p.getLsbD j))

/-- What R44 and R103 derive from R80 and R102: the register after a sequence is the bit-steps over one stream, each Word
least-significant bit first and the Words in order. -/
def Obligations.BitStreamOrder : Prop :=
  ∀ (p : Word) (ws : List Word),
    register p ws =
      (ws.flatMap (fun w => (List.range 32).map (fun i => w.getLsbD i))).foldl (bitstep p) 0xFFFFFFFF

/-- R104, and what it derives from R87: the inversion may come first, and `finalize` is a bijection with inverse `r ->
reflect(r XOR 0xFFFFFFFF, 32)`. -/
def Obligations.FinalizeIsABijection : Prop :=
  (∀ c : Word, finalize c = reflect c Width.full ^^^ 0xFFFFFFFF) ∧
  (∀ c : Word, finalize c = reflect (c ^^^ 0xFFFFFFFF) Width.full) ∧
  (∀ r : Word, finalize (reflect (r ^^^ 0xFFFFFFFF) Width.full) = r) ∧
  (∀ c : Word, reflect (finalize c ^^^ 0xFFFFFFFF) Width.full = c) ∧
  Function.Bijective finalize

/-- R43, R105: `calculate_crc` folds exactly the first `length` Words, and has no value where there are fewer. -/
def Obligations.CalculateCrcReadsExactlyLength : Prop :=
  ∀ (p : Word) (ws : List Word) (n : Nat),
    (n ≤ ws.length → calculateCrc p ws n = some (finalize ((ws.take n).foldl (foldWord p) 0xFFFFFFFF))) ∧
    (ws.length < n → calculateCrc p ws n = none)

/-- R106: the empty sequence gives 0 for every `POLYNOMIAL`. -/
def Obligations.EmptySequenceGivesZero : Prop :=
  ∀ p : Word,
    calculateCrc p [] 0 = some (reflect 0xFFFFFFFF Width.full ^^^ 0xFFFFFFFF) ∧ calculateCrc p [] 0 = some 0x00000000

/-- R107: the fold law. -/
def Obligations.FoldLaw : Prop :=
  ∀ p : Word,
    register p [] = 0xFFFFFFFF ∧
    ∀ (ws : List Word) (w : Word),
      register p (ws ++ [w]) = foldWord p (register p ws) w ∧
      calculateCrc p ws ws.length = some (finalize (register p ws))

/-- V-A1, from R101 and R103: folding a register's own reflection empties it, whatever `POLYNOMIAL` is. -/
def Obligations.FoldingTheOwnReflectionEmptiesTheRegister : Prop :=
  ∀ p crc : Word, foldWord p crc (reflect crc Width.full) = 0

/-- R109, V-E2, V-E5: with `POLYNOMIAL` 0 every non-empty sequence gives all-ones, and with 1 the Result is the XOR of the
Words, so order sensitivity is no law for every `POLYNOMIAL`. -/
def Obligations.DegeneratePolynomials : Prop :=
  (∀ (w : Word) (ws : List Word), calculateCrc 0 (w :: ws) (w :: ws).length = some 0xFFFFFFFF) ∧
  ∀ ws : List Word, calculateCrc 1 ws ws.length = some (ws.foldl (· ^^^ ·) 0)

/-- What R116 derives from R101 to R104 and R87: the right-shifting form keeps the reflected register, its two ways to take
a Word agree, and its Result is the same with no reflection at the end. -/
def Obligations.RightShiftingFormAgrees : Prop :=
  (∀ (p crc : Word) (b : Bool),
    reflect (bitstep p crc b) Width.full = rightStep (reflect p Width.full) (reflect crc Width.full) b) ∧
  (∀ p crc w : Word,
    reflect (foldWord p crc w) Width.full = rightFold (reflect p Width.full) (reflect crc Width.full) w) ∧
  (∀ q r w : Word, rightFold q r w = rightFoldXored q r w) ∧
  (∀ (p : Word) (ws : List Word), calculateCrc p ws ws.length = some (rightCrc (reflect p Width.full) ws)) ∧
  reflect 0x04C11DB7 Width.full = 0xEDB88320

/-- What R118 derives from R101, R102, R104 and R87: for equal lengths `calculate_crc` is affine over XOR, for every
`POLYNOMIAL`. -/
def Obligations.ResultIsAffineOverXor : Prop :=
  ∀ (p : Word) (as bs cs : List Word), as.length = bs.length → bs.length = cs.length →
    ∃ x y z : Word,
      calculateCrc p as as.length = some x ∧ calculateCrc p bs bs.length = some y ∧ calculateCrc p cs cs.length = some z ∧
      calculateCrc p (List.zipWith (· ^^^ ·) (List.zipWith (· ^^^ ·) as bs) cs) as.length = some (x ^^^ y ^^^ z)

/-- R161: after a `WORD` the informative bit-serial unit is ready again after 32 further cycles and not before, with the
register `fold_word` gives. (That `cmd_ready` rises with the last bit-step is the model's choice, log entry 25.) -/
def Obligations.SerialUnitComputesFoldWord : Prop :=
  ∀ (p draw w : Word) (u : SerialUnit),
    (serialCycles p 32 (serialAccept draw (.word w) u)).crc = foldWord p u.crc w ∧
    (∀ n, n ≤ 32 → ((serialCycles p n (serialAccept draw (.word w) u)).cmdReady = true ↔ n = 32))

/-- R161: the informative unit, its `OPEN` and response queue included, does what the commands do: where a ready unit holds what
a state holds and the command completes, the unit holds what the next state holds after the command's latency, and is not
ready before; for a reserved `bits` its reflector gives the same free value. A call of `n` Words takes `33n + 2` cycles. (What
the unit's `cmd_ready` and `OPEN` do where the rule is silent is the model's choice, log entry 25.) -/
def Obligations.SerialUnitRefinesTheCommands : Prop :=
  (∀ (i : Instr) (s t : State) (u : SerialUnit) (draw : Word),
    serialHolds u s → exec i s = .next t → (∀ v bits, i = .reflect v bits → draw = nextDraw v bits s) →
    serialHolds (serialCycles s.config.polynomial (serialLatency i - 1) (serialAccept draw i u)) t ∧
    ∀ n, n < serialLatency i - 1 →
      (serialCycles s.config.polynomial n (serialAccept draw i u)).cmdReady = false) ∧
  ∀ ws : List Word, ((crcCall ws).map serialLatency).sum = 33 * ws.length + 2

-- The ports

/-- R32, R67, R134, R150: at an edge with `rst = 1` the wire `cmd_ready` is 0 and there is the reset and nothing else, whatever
else is offered; with `rst = 0` a beat is taken exactly when `rsp_valid` and `rsp_ready`, a command accepted exactly when
`cmd_valid` and `cmd_ready`; with neither, the state stays. After a reset edge `rsp_valid = 0`. (That an edge takes the
implementation's `cmd_ready` as an argument and has no latency is the model's choice, log entry 8; and that at an edge with
`rst = 0` it is free, log entry 19.) -/
def Obligations.EdgesFollowTheHandshake : Prop :=
  (∀ (ready : Bool) (p : PortInputs) (s : State), p.rst = true →
    (portOutputs ready p s).cmdReady = false ∧
    clockEdge ready p s = .next { s with crc := none, isOpen := false, rsp := [] }) ∧
  (∀ (ready after : Bool) (p p' : PortInputs) (s t : State), p.rst = true → clockEdge ready p s = .next t →
    (portOutputs after p' t).rspValid = false) ∧
  (∀ (ready : Bool) (p : PortInputs) (s : State), p.rst = false →
    (Event.take ∈ edgeEvents ready p s ↔ (portOutputs ready p s).rspValid = true ∧ p.rspReady = true) ∧
    (∀ c, Event.command c ∈ edgeEvents ready p s ↔
      p.cmdValid = true ∧ (portOutputs ready p s).cmdReady = true ∧ c = p.cmd) ∧
    ((portOutputs ready p s).cmdReady = ready) ∧
    Event.reset ∉ edgeEvents ready p s ∧ (edgeEvents ready p s).length ≤ 2) ∧
  (∀ (ready : Bool) (p : PortInputs) (s : State), p.rst = false →
    (p.cmdValid && ready) = false → ((portOutputs ready p s).rspValid && p.rspReady) = false →
    clockEdge ready p s = .next s)

/-- R67: while `rsp_valid = 1` and `rsp_ready = 0` the block holds `rsp_valid` and `rsp`, whatever command it accepts (at an
edge without latency, log entry 8). -/
def Obligations.UntakenBeatIsHeld : Prop :=
  ∀ (ready after : Bool) (p p' : PortInputs) (s t : State), p.rst = false → p.rspReady = false →
    (portOutputs ready p s).rspValid = true → clockEdge ready p s = .next t →
    (portOutputs after p' t).rspValid = true ∧ (portOutputs after p' t).rsp = (portOutputs ready p s).rsp

/-- R67: any sequence of edges does what the events at those edges do in order; the edges between them do not matter. That an
edge does the whole of its events at once, without latency, is the model's choice (log entry 8), and that its take comes before
its command is deduced (log entry 10). -/
def Obligations.EdgesAreTheirEvents : Prop :=
  ∀ (es : List (Bool × PortInputs)) (s : State), clockEdges es s = handleAll (edgeTrace es s) s

/-- R67: a host that holds a command while it is not accepted has exactly that command accepted at the edge where
`cmd_ready` comes. -/
def Obligations.HeldCommandIsTheOneAccepted : Prop :=
  ∀ (first last : PortInputs) (waits : List PortInputs),
    first.cmdValid = true → (first :: waits).all (fun p => !p.rst) = true → last.rst = false →
    hostHoldsThroughout ((first :: waits).map (fun p => (false, p)) ++ [(true, last)]) = true →
    acceptsCommand true last = true ∧ last.cmd = first.cmd ∧
      ∀ s : State, Event.command first.cmd ∈ edgeEvents true last s

/-- R8, R156: an implementation that keeps `cmd_ready` as R156 says never holds more than `RSP_DEPTH` beats. (That a full queue
has room at an edge that takes its head is the model's choice, log entry 20.) -/
def Obligations.QueueDepthIsKept : Prop :=
  ∀ (depth : Nat) (ready : Bool) (p : PortInputs) (s t : State),
    s.rsp.length ≤ depth → cmdReadyKeeps depth ready p s = true → clockEdge ready p s = .next t →
    t.rsp.length ≤ depth

/-- R157, with R156: a host that holds the command it offers and eventually takes every beat has it accepted, by a block of any
depth that is weakly fair, and that very command, at the first edge that accepts one. No reset is among the edges. (What
fairness asks for exactly is the model's choice, log entry 23; when a queue has room, log entry 20.) -/
def Obligations.OfferedCommandIsEventuallyAccepted : Prop :=
  ∀ (depth : Nat) (f : Nat → Bool × PortInputs) (s : State),
    1 ≤ depth → (∀ n, (f n).2.rst = false) → (f 0).2.cmdValid = true →
    (∀ n, hostHolds (f n).1 (f n).2 (f (n + 1)).2 = true) →
    hostTakesEventually f s → weaklyFair depth f s →
    ∃ m, acceptsCommand (f m).1 (f m).2 = true ∧ (f m).2.cmd = (f 0).2.cmd ∧
      ∀ k, k < m → acceptsCommand (f k).1 (f k).2 = false

-- Runs without an end

/-- R158: an unbounded sequence of events is a run of the machine's own steps, as far as one likes: its first `n` events are `n`
steps of a machine that has them offered; and a host that brackets its Words for ever (R152) has an infinite run, in which
`CRC` holds a value exactly when `OPEN = 1` (R22). (Sequences as functions of the position: the model's choice, log entry 24.) -/
def Obligations.UnboundedRunIsStepByStep : Prop :=
  (∀ (es : Nat → Event) (n : Nat) (rest : List Event) (s : State),
    Host.Core.run core n { s with inputs := (List.range n).map es ++ rest } = eventRun es { s with inputs := rest } n) ∧
  ∀ (es : Nat → Event) (s : State), crcValid s = true → (∀ n, bracketed s.isOpen ((List.range n).map es) = true) →
    goesOn es s ∧ ∀ n t, eventRun es s n = .next t → crcValid t = true

/-- R158, R113: the beat of a complete call is of kind 0 and its data, the call's Result, is `calculate_crc` of the call's Words,
in any run, finite or infinite. -/
def Obligations.CompleteCallsBeatIsItsResult : Prop :=
  ∀ (es : Nat → Event) (s : State) (n m k : Nat) (b : Beat), callComplete es s n m k b →
    b.kind = .result ∧
    calculateCrc s.config.polynomial (wordsOf (commandsOf (eventsBetween es n m)))
      (wordsOf (commandsOf (eventsBetween es n m))).length = some b.data

/-- R157, R158: as long as a call is in progress it is open and has pushed beats of `REFLECT` only, and an abandoned call is never
complete; so a call the host abandons, or never closes, has no Result. -/
def Obligations.UnfinishedCallHasNoResult : Prop :=
  (∀ (es : Nat → Event) (s t u : State) (n m : Nat), inProgress es n m →
    eventRun es s n = .next t → eventRun es s m = .next u →
    u.isOpen = true ∧ ∃ bs : List Beat, u.taken ++ u.rsp = t.taken ++ t.rsp ++ bs ∧ ∀ b ∈ bs, b.kind = .reflected) ∧
  ∀ (es : Nat → Event) (s : State) (n m m' k : Nat) (b : Beat), callAbandoned es n m → ¬ callComplete es s n m' k b

-- Instances

/-- R53, R138: steps of two instances in either order give the same, each what it does alone; and the shared constant stays
shared. (A list of states stands for the instances, log entry 16; a refusal at one ends the run of all, so the statement is about
steps that complete, log entry 21.) -/
def Obligations.InstancesDoNotInterfere : Prop :=
  (∀ (m m₁ m₂ : List State) (j k : Nat), j ≠ k →
    stepInstance j m = some (.next m₁) → stepInstance k m₁ = some (.next m₂) →
    ∃ m₃, stepInstance k m = some (.next m₃) ∧ stepInstance j m₃ = some (.next m₂)) ∧
  (∀ (m m₁ : List State) (j k : Nat), j ≠ k → stepInstance j m = some (.next m₁) → m₁[k]? = m[k]?) ∧
  ∀ (config : Config) (m m₁ : List State) (k : Nat), sharesConfig config m = true →
    stepInstance k m = some (.next m₁) → sharesConfig config m₁ = true

/-- R11, R25, R53: the instances share the constant, and the free values not: each draws from a stream of its own; both at reset and
after every step, whatever instance takes it. (Streams are the model's own, log entry 4; a list of states, log entry 16.) -/
def Obligations.InstancesShareOnlyTheConstant : Prop :=
  (∀ (count : Nat) (config : Config), (resetInstances count config).length = count ∧
    sharesConfig config (resetInstances count config) = true ∧ ownStreams (resetInstances count config) = true) ∧
  ∀ (m m₁ : List State) (k : Nat), stepInstance k m = some (.next m₁) →
    (ownStreams m = true → ownStreams m₁ = true) ∧
    ∀ config : Config, sharesConfig config m = true → sharesConfig config m₁ = true
end

