-- ==== Sys2Proof/Laws/Datapath.lean ====
section
/-! SUPPORT. The loops of the function layer, bit by bit (R85, R101, R102). -/

namespace Sys2Proof.Machine

/-- After `n` passes the reference loop has mirrored the low `n` bits of the source (R85). -/
theorem getLsbD_reflectLoop (data : Word) (bits n : Nat) (hn : n ≤ bits) (hb : bits ≤ 32) (i : Nat) (hi : i < 32) :
    (reflectLoop data bits n).getLsbD i =
      (decide (bits - n ≤ i) && decide (i < bits) && data.getLsbD (bits - 1 - i)) := by
  induction n with
  | zero =>
    simp only [reflectLoop]
    by_cases h1 : bits ≤ i
    · simp [show ¬ i < bits by omega]
    · simp [h1]
  | succ b ih =>
    have ih := ih (by omega)
    have hshift : (1#32 <<< (bits - 1 - b)).getLsbD i = decide (i = bits - 1 - b) := by
      simp only [BitVec.getLsbD_shiftLeft, hi, decide_true, Bool.true_and]
      by_cases h : i < bits - 1 - b
      · simp [h, show i ≠ bits - 1 - b by omega]
      · simp [BitVec.getLsbD_one, h]
        omega
    simp only [reflectLoop]
    by_cases he : i = bits - 1 - b
    · have h1 : bits - 1 - i = b := by omega
      have h2 : ¬ (bits - b ≤ i) := by omega
      split <;> rename_i hd
      · rw [BitVec.getLsbD_or, ih, hshift]
        simp [he, show bits - 1 - (bits - 1 - b) = b by omega, hd]
        omega
      · rw [ih]
        simp [h1, h2, hd]
    · have h2 : (bits - (b + 1) ≤ i) ↔ (bits - b ≤ i) := by omega
      split
      · rw [BitVec.getLsbD_or, ih, hshift]
        simp [he, h2]
      · rw [ih]
        simp [h2]

/-- A bit-step, one bit at a time. -/
theorem getLsbD_bitstep (p c : Word) (b : Bool) (j : Nat) (hj : j < 32) :
    (bitstep p c b).getLsbD j =
      ((decide (1 ≤ j) && c.getLsbD (j - 1)) ^^ ((c.getLsbD 31 ^^ b) && p.getLsbD j)) := by
  have hs : (c <<< 1).getLsbD j = (decide (1 ≤ j) && c.getLsbD (j - 1)) := by
    rw [BitVec.getLsbD_shiftLeft]
    by_cases h : 1 ≤ j
    · simp [hj, h, show ¬ j < 1 by omega]
    · simp [show j < 1 by omega, h]
  simp only [bitstep]
  split <;> rename_i h
  · rw [BitVec.getLsbD_xor, hs, h, Bool.true_and]
  · rw [hs]
    simp only [Bool.not_eq_true] at h
    rw [h]
    simp

@[simp] theorem foldLoop_zero (p b c : Word) : foldLoop p b c 0 = c := rfl

theorem foldLoop_succ (p b c : Word) (i : Nat) :
    foldLoop p b c (i + 1) = bitstep p (foldLoop p b c i) (b.getLsbD (31 - i)) := rfl

theorem engineLoop_succ (p : Word) (ws : List Word) (k : Nat) (crc w : Word)
    (hc : engineLoop p ws k = some crc) (hw : ws[k]? = some w) :
    engineLoop p ws (k + 1) = some (foldWord p crc w) := by
  simp only [engineLoop, hc, hw]

end Sys2Proof.Machine
end

