-- ==== Sys2Proof/Laws/Encoding.lean ====
section
/-! SUPPORT. The fields of a command word, bit by bit, and what masking keeps (R60, R63). -/

namespace Sys2Proof

/-- Every bit of a command word put together from its fields. -/
theorem getLsbD_commandWord (op : BitVec 2) (b : BitVec 6) (d : Word) (i : Nat) :
    (commandWord op b d).getLsbD i =
      if i < 32 then d.getLsbD i else if i < 38 then b.getLsbD (i - 32) else op.getLsbD (i - 38) := by
  simp only [commandWord, BitVec.getLsbD_cast, BitVec.getLsbD_append]
  split
  · split <;> simp_all
  · rw [if_neg (by omega)]

@[simp] theorem opField_commandWord (op : BitVec 2) (b : BitVec 6) (d : Word) :
    opField (commandWord op b d) = op := by
  apply BitVec.eq_of_getLsbD_eq
  intro i hi
  simp only [opField, BitVec.getLsbD_extractLsb', getLsbD_commandWord]
  rw [if_neg (by omega), if_neg (by omega)]
  simp [hi]

@[simp] theorem bitsField_commandWord (op : BitVec 2) (b : BitVec 6) (d : Word) :
    bitsField (commandWord op b d) = b := by
  apply BitVec.eq_of_getLsbD_eq
  intro i hi
  simp only [bitsField, BitVec.getLsbD_extractLsb', getLsbD_commandWord]
  rw [if_neg (by omega), if_pos (by omega)]
  simp [hi]

@[simp] theorem dataField_commandWord (op : BitVec 2) (b : BitVec 6) (d : Word) :
    dataField (commandWord op b d) = d := by
  apply BitVec.eq_of_getLsbD_eq
  intro i hi
  simp [dataField, getLsbD_commandWord, hi]

/-- A command word is its three fields (R60). -/
theorem commandWord_fields (c : CommandWord) : commandWord (opField c) (bitsField c) (dataField c) = c := by
  apply BitVec.eq_of_getLsbD_eq
  intro i hi
  simp only [getLsbD_commandWord, opField, bitsField, dataField, BitVec.getLsbD_extractLsb']
  split
  · simp [*]
  · split
    · simp [show 32 + (i - 32) = i by omega]
      omega
    · simp [show 38 + (i - 38) = i by omega]
      omega

/-- The two bits of `op` leave four cases (R61). -/
theorem op_cases (op : BitVec 2) : op = 0 ∨ op = 1 ∨ op = 2 ∨ op = 3 := by
  revert op
  decide

/-- The table's mask keeps `op` alone (R63). -/
theorem commandWord_and_opMask (op : BitVec 2) (b : BitVec 6) (d : Word) :
    commandWord op b d &&& 0xC000000000#40 = commandWord op 0 0 := by
  have hm : 0xC000000000#40 = commandWord 3 0 0 := by decide
  rw [hm]
  apply BitVec.eq_of_getLsbD_eq
  intro i hi
  simp only [BitVec.getLsbD_and, getLsbD_commandWord]
  split
  · simp
  split
  · simp
  have : i - 38 = 0 ∨ i - 38 = 1 := by omega
  rcases this with h | h <;> simp [h]

/-- The mask of `op` and `data`. -/
theorem commandWord_and_opDataMask (op : BitVec 2) (b : BitVec 6) (d : Word) :
    commandWord op b d &&& 0xC0FFFFFFFF#40 = commandWord op 0 d := by
  have hm : 0xC0FFFFFFFF#40 = commandWord 3 0 (BitVec.allOnes 32) := by decide
  rw [hm]
  apply BitVec.eq_of_getLsbD_eq
  intro i hi
  simp only [BitVec.getLsbD_and, getLsbD_commandWord]
  split
  · rename_i h
    simp only [BitVec.getLsbD_allOnes, h, decide_true, Bool.and_true]
  split
  · simp
  have : i - 38 = 0 ∨ i - 38 = 1 := by omega
  rcases this with h | h <;> simp [h]

/-- A row of the table accepts a word exactly where its pattern is the word's `op` (R63). -/
theorem accepts_commandWord (r : OpcodeRow) (hr : r ∈ opcodeTable) (op : BitVec 2) (b : BitVec 6) (d : Word) :
    r.accepts (commandWord op b d) = true ↔ commandWord op 0 0 = r.matchBits := by
  have hm : r.mask = 0xC000000000#40 := by
    simp only [opcodeTable, List.mem_cons, List.not_mem_nil, or_false] at hr
    rcases hr with rfl | rfl | rfl | rfl <;> rfl
  rw [OpcodeRow.accepts, hm, commandWord_and_opMask, decide_eq_true_iff]

theorem commandWord_op_inj (op op' : BitVec 2) : commandWord op 0 0 = commandWord op' 0 0 ↔ op = op' :=
  ⟨fun h => by simpa using congrArg opField h, fun h => h ▸ rfl⟩

end Sys2Proof
end

