-- ==== Sys2Proof/Laws/State.lean ====
section
/-! SUPPORT. One lemma per field and per update of the state, true by unfolding the update once. -/

namespace Sys2Proof.Machine

@[simp] theorem writeCrc_crc (v : Word) (s : State) : (writeCrc v s).crc = some v := rfl
@[simp] theorem writeCrc_isOpen (v : Word) (s : State) : (writeCrc v s).isOpen = s.isOpen := rfl
@[simp] theorem writeCrc_rsp (v : Word) (s : State) : (writeCrc v s).rsp = s.rsp := rfl
@[simp] theorem writeCrc_config (v : Word) (s : State) : (writeCrc v s).config = s.config := rfl
@[simp] theorem writeCrc_inputs (v : Word) (s : State) : (writeCrc v s).inputs = s.inputs := rfl
@[simp] theorem writeCrc_taken (v : Word) (s : State) : (writeCrc v s).taken = s.taken := rfl
@[simp] theorem writeCrc_draws (v : Word) (s : State) : (writeCrc v s).draws = s.draws := rfl
@[simp] theorem writeCrc_stream (v : Word) (s : State) : (writeCrc v s).stream = s.stream := rfl

@[simp] theorem invalidateCrc_crc (s : State) : (invalidateCrc s).crc = none := rfl
@[simp] theorem invalidateCrc_isOpen (s : State) : (invalidateCrc s).isOpen = s.isOpen := rfl
@[simp] theorem invalidateCrc_rsp (s : State) : (invalidateCrc s).rsp = s.rsp := rfl
@[simp] theorem invalidateCrc_config (s : State) : (invalidateCrc s).config = s.config := rfl
@[simp] theorem invalidateCrc_inputs (s : State) : (invalidateCrc s).inputs = s.inputs := rfl
@[simp] theorem invalidateCrc_taken (s : State) : (invalidateCrc s).taken = s.taken := rfl
@[simp] theorem invalidateCrc_draws (s : State) : (invalidateCrc s).draws = s.draws := rfl
@[simp] theorem invalidateCrc_stream (s : State) : (invalidateCrc s).stream = s.stream := rfl

@[simp] theorem respond_crc (k : BeatKind) (d : Word) (s : State) : (respond k d s).crc = s.crc := rfl
@[simp] theorem respond_isOpen (k : BeatKind) (d : Word) (s : State) : (respond k d s).isOpen = s.isOpen := rfl
@[simp] theorem respond_rsp (k : BeatKind) (d : Word) (s : State) : (respond k d s).rsp = s.rsp ++ [{ kind := k, data := d }] := rfl
@[simp] theorem respond_config (k : BeatKind) (d : Word) (s : State) : (respond k d s).config = s.config := rfl
@[simp] theorem respond_inputs (k : BeatKind) (d : Word) (s : State) : (respond k d s).inputs = s.inputs := rfl
@[simp] theorem respond_taken (k : BeatKind) (d : Word) (s : State) : (respond k d s).taken = s.taken := rfl
@[simp] theorem respond_draws (k : BeatKind) (d : Word) (s : State) : (respond k d s).draws = s.draws := rfl
@[simp] theorem respond_stream (k : BeatKind) (d : Word) (s : State) : (respond k d s).stream = s.stream := rfl

@[simp] theorem advanceDraw_crc (s : State) : (advanceDraw s).crc = s.crc := rfl
@[simp] theorem advanceDraw_isOpen (s : State) : (advanceDraw s).isOpen = s.isOpen := rfl
@[simp] theorem advanceDraw_rsp (s : State) : (advanceDraw s).rsp = s.rsp := rfl
@[simp] theorem advanceDraw_config (s : State) : (advanceDraw s).config = s.config := rfl
@[simp] theorem advanceDraw_inputs (s : State) : (advanceDraw s).inputs = s.inputs := rfl
@[simp] theorem advanceDraw_taken (s : State) : (advanceDraw s).taken = s.taken := rfl
@[simp] theorem advanceDraw_draws (s : State) : (advanceDraw s).draws = s.draws + 1 := rfl
@[simp] theorem advanceDraw_stream (s : State) : (advanceDraw s).stream = s.stream := rfl

@[simp] theorem setOpen_crc (s : State) : (setOpen s).crc = s.crc := rfl
@[simp] theorem setOpen_isOpen (s : State) : (setOpen s).isOpen = true := rfl
@[simp] theorem setOpen_rsp (s : State) : (setOpen s).rsp = s.rsp := rfl
@[simp] theorem setOpen_config (s : State) : (setOpen s).config = s.config := rfl
@[simp] theorem setOpen_inputs (s : State) : (setOpen s).inputs = s.inputs := rfl
@[simp] theorem setOpen_taken (s : State) : (setOpen s).taken = s.taken := rfl
@[simp] theorem setOpen_draws (s : State) : (setOpen s).draws = s.draws := rfl
@[simp] theorem setOpen_stream (s : State) : (setOpen s).stream = s.stream := rfl

@[simp] theorem clearOpen_crc (s : State) : (clearOpen s).crc = s.crc := rfl
@[simp] theorem clearOpen_isOpen (s : State) : (clearOpen s).isOpen = false := rfl
@[simp] theorem clearOpen_rsp (s : State) : (clearOpen s).rsp = s.rsp := rfl
@[simp] theorem clearOpen_config (s : State) : (clearOpen s).config = s.config := rfl
@[simp] theorem clearOpen_inputs (s : State) : (clearOpen s).inputs = s.inputs := rfl
@[simp] theorem clearOpen_taken (s : State) : (clearOpen s).taken = s.taken := rfl
@[simp] theorem clearOpen_draws (s : State) : (clearOpen s).draws = s.draws := rfl
@[simp] theorem clearOpen_stream (s : State) : (clearOpen s).stream = s.stream := rfl

@[simp] theorem resetBlock_crc (s : State) : (resetBlock s).crc = none := rfl
@[simp] theorem resetBlock_isOpen (s : State) : (resetBlock s).isOpen = false := rfl
@[simp] theorem resetBlock_rsp (s : State) : (resetBlock s).rsp = [] := rfl
@[simp] theorem resetBlock_config (s : State) : (resetBlock s).config = s.config := rfl
@[simp] theorem resetBlock_inputs (s : State) : (resetBlock s).inputs = s.inputs := rfl
@[simp] theorem resetBlock_taken (s : State) : (resetBlock s).taken = s.taken := rfl
@[simp] theorem resetBlock_draws (s : State) : (resetBlock s).draws = s.draws := rfl
@[simp] theorem resetBlock_stream (s : State) : (resetBlock s).stream = s.stream := rfl

@[simp] theorem offerCommand_crc (c : CommandWord) (s : State) : (offerCommand c s).crc = s.crc := rfl
@[simp] theorem offerCommand_isOpen (c : CommandWord) (s : State) : (offerCommand c s).isOpen = s.isOpen := rfl
@[simp] theorem offerCommand_rsp (c : CommandWord) (s : State) : (offerCommand c s).rsp = s.rsp := rfl
@[simp] theorem offerCommand_config (c : CommandWord) (s : State) : (offerCommand c s).config = s.config := rfl
@[simp] theorem offerCommand_inputs (c : CommandWord) (s : State) : (offerCommand c s).inputs = .command c :: s.inputs := rfl
@[simp] theorem offerCommand_taken (c : CommandWord) (s : State) : (offerCommand c s).taken = s.taken := rfl
@[simp] theorem offerCommand_draws (c : CommandWord) (s : State) : (offerCommand c s).draws = s.draws := rfl
@[simp] theorem offerCommand_stream (c : CommandWord) (s : State) : (offerCommand c s).stream = s.stream := rfl

@[simp] theorem takeBeat_crc (s : State) : (takeBeat s).crc = s.crc := by
  unfold takeBeat; split <;> rfl
@[simp] theorem takeBeat_isOpen (s : State) : (takeBeat s).isOpen = s.isOpen := by
  unfold takeBeat; split <;> rfl
@[simp] theorem takeBeat_config (s : State) : (takeBeat s).config = s.config := by
  unfold takeBeat; split <;> rfl
@[simp] theorem takeBeat_inputs (s : State) : (takeBeat s).inputs = s.inputs := by
  unfold takeBeat; split <;> rfl
@[simp] theorem takeBeat_draws (s : State) : (takeBeat s).draws = s.draws := by
  unfold takeBeat; split <;> rfl

@[simp] theorem takeBeat_stream (s : State) : (takeBeat s).stream = s.stream := by
  unfold takeBeat; split <;> rfl

/-- Taking a beat moves it from `RSP` to the host and loses none (R67). -/
theorem takeBeat_moves (s : State) : (takeBeat s).taken ++ (takeBeat s).rsp = s.taken ++ s.rsp := by
  unfold takeBeat; split <;> simp_all

theorem takeBeat_rsp (s : State) : (takeBeat s).rsp = s.rsp.tail := by
  unfold takeBeat; split <;> simp_all

@[simp] theorem resetWith_crc (c : Config) : (State.resetWith c).crc = none := rfl
@[simp] theorem resetWith_isOpen (c : Config) : (State.resetWith c).isOpen = false := rfl
@[simp] theorem resetWith_rsp (c : Config) : (State.resetWith c).rsp = [] := rfl
@[simp] theorem resetWith_config (c : Config) : (State.resetWith c).config = c := rfl

end Sys2Proof.Machine
end

