-- ==== Sys2Proof/Laws/Operations.lean ====
section
/-! SUPPORT. What each shared operation, each command and each step can do: one lemma each, cited instead of unfolding. -/

namespace Sys2Proof.Machine

/-- `CRC` is readable exactly inside a call (R22). -/
theorem readCrc_eq_some {s : State} {c : Word} : readCrc s = some c ↔ s.isOpen = true ∧ s.crc = some c := by
  unfold readCrc; split <;> simp_all

theorem readCrc_eq_none {s : State} : readCrc s = none ↔ s.isOpen = false ∨ s.crc = none := by
  unfold readCrc; split <;> simp_all

/-- The legal widths (R83). -/
theorem legalWidth_eq_some {bits : Nat} (h : 1 ≤ bits ∧ bits ≤ 32) : legalWidth bits = some ⟨bits, h⟩ := dif_pos h

/-- The reserved values (R64). -/
theorem legalWidth_eq_none {bits : Nat} (h : ¬ (1 ≤ bits ∧ bits ≤ 32)) : legalWidth bits = none := dif_neg h

@[simp] theorem exec_init (s : State) : exec .init s = execInit s := rfl
@[simp] theorem exec_word (w : Word) (s : State) : exec (.word w) s = execWord w s := rfl
@[simp] theorem exec_final (s : State) : exec .final s = execFinal s := rfl
@[simp] theorem exec_reflect (v : Word) (n : Nat) (s : State) : exec (.reflect v n) s = execReflect v n s := rfl

theorem execWord_of_readCrc {s : State} {c : Word} (h : readCrc s = some c) (w : Word) :
    execWord w s = .next (writeCrc (foldWord s.config.polynomial c w) s) := by
  unfold execWord; rw [h]

theorem execFinal_of_readCrc {s : State} {c : Word} (h : readCrc s = some c) :
    execFinal s = .next (invalidateCrc (clearOpen (respond .result (finalize c) s))) := by
  unfold execFinal; rw [h]

/-- Everything a command that answers a next state can have done (R88, R89, R110 to R112). -/
theorem exec_cases {i : Instr} {s t : State} (h : exec i s = .next t) :
    (i = .init ∧ t = setOpen (writeCrc Config.initValue s)) ∨
    (∃ w c, i = .word w ∧ readCrc s = some c ∧ t = writeCrc (foldWord s.config.polynomial c w) s) ∨
    (∃ c, i = .final ∧ readCrc s = some c ∧ t = invalidateCrc (clearOpen (respond .result (finalize c) s))) ∨
    (∃ v n w, i = .reflect v n ∧ legalWidth n = some w ∧ t = respond .reflected (reflect v w) s) ∨
    (∃ v n, i = .reflect v n ∧ legalWidth n = none ∧ t = advanceDraw (respond .reflected (nextDraw v n s) s)) := by
  cases i with
  | init => exact .inl ⟨rfl, by simpa [execInit] using h.symm⟩
  | word w =>
    simp only [exec_word, execWord] at h
    split at h
    · next c hc => exact .inr (.inl ⟨w, c, rfl, hc, by simpa using h.symm⟩)
    · simp at h
  | final =>
    simp only [exec_final, execFinal] at h
    split at h
    · next c hc => exact .inr (.inr (.inl ⟨c, rfl, hc, by simpa using h.symm⟩))
    · simp at h
  | reflect v n =>
    simp only [exec_reflect, execReflect] at h
    split at h
    · next w hw => exact .inr (.inr (.inr (.inl ⟨v, n, w, rfl, hw, by simpa using h.symm⟩)))
    · next hw => exact .inr (.inr (.inr (.inr ⟨v, n, rfl, hw, by simpa using h.symm⟩)))

/-- Everything that can have refused a command (R132). -/
theorem exec_refused_cases {i : Instr} {s : State} {r : Refusal} (h : exec i s = .refused r) :
    readCrc s = none ∧ ((∃ w, i = .word w ∧ r = .wordOutsideCall) ∨ (i = .final ∧ r = .finalOutsideCall)) := by
  cases i with
  | init => simp [execInit] at h
  | word w =>
    simp only [exec_word, execWord] at h
    split at h
    · simp at h
    · next hc => exact ⟨hc, .inl ⟨w, rfl, by simpa using h.symm⟩⟩
  | final =>
    simp only [exec_final, execFinal] at h
    split at h
    · simp at h
    · next hc => exact ⟨hc, .inr ⟨rfl, by simpa using h.symm⟩⟩
  | reflect v n =>
    simp only [exec_reflect, execReflect] at h
    split at h <;> simp at h

/-- Everything an event that answers a next state can have been (R13, R67, R150). -/
theorem handleEvent_cases {e : Event} {s t : State} (h : handleEvent e s = .next t) :
    (∃ c, e = .command c ∧ exec (decode c) s = .next t) ∨
    (e = .take ∧ t = takeBeat s) ∨ (e = .reset ∧ t = resetBlock s) := by
  cases e with
  | command c => exact .inl ⟨c, rfl, h⟩
  | take => exact .inr (.inl ⟨rfl, by simpa [handleEvent] using h.symm⟩)
  | reset => exact .inr (.inr ⟨rfl, by simpa [handleEvent] using h.symm⟩)

/-- Everything a step that answers a next state can have done. -/
theorem step_cases {s t : State} (h : step s = .next t) :
    (s.inputs = [] ∧ t = s) ∨
    (∃ e rest, s.inputs = e :: rest ∧ handleEvent e { s with inputs := rest } = .next t) := by
  unfold step at h
  split at h
  · next hi => exact .inl ⟨hi, by simpa using h.symm⟩
  · next e rest hi => exact .inr ⟨e, rest, hi, h⟩

end Sys2Proof.Machine
end

