-- ==== Sys2Proof/Laws/PerInstr.lean ====
section
/-! SUPPORT. Statements about every instruction as syntax, one lemma per constructor. -/

namespace Sys2Proof.Laws.RowOfEncoding

/-- The encoder's word is canonical (R63), and of the opcode table's rows exactly the instruction's own accepts it (R61). -/
def Statement (i : Instr) : Prop :=
  canonicalWord (encode i) = true ∧
    ∀ r ∈ opcodeTable, (r.accepts (encode i) = true ↔ r.mnemonic = i.mnemonic)

theorem init : Statement .init := by
  refine ⟨by decide, by decide⟩

theorem word (w : Word) : Statement (.word w) := by
  refine ⟨by simp [canonicalWord, usedFields, encode, commandWord_and_opDataMask], ?_⟩
  intro r hr
  rw [encode, accepts_commandWord r hr]
  revert r
  exact (by decide : ∀ r ∈ opcodeTable, commandWord 1 0 0 = r.matchBits ↔ r.mnemonic = .WORD)

theorem final : Statement .final := by
  refine ⟨by decide, by decide⟩

theorem reflect (value : Word) (bits : Nat) : Statement (.reflect value bits) := by
  refine ⟨by simp [canonicalWord, usedFields, encode], ?_⟩
  intro r hr
  rw [encode, accepts_commandWord r hr]
  revert r
  exact (by decide : ∀ r ∈ opcodeTable, commandWord 3 0 0 = r.matchBits ↔ r.mnemonic = .REFLECT)

end Sys2Proof.Laws.RowOfEncoding
end

