-- ==== Sys2Proof/Laws/Runs.lean ====
section
/-! SUPPORT. What a longer run is made of: events one after another, unbounded runs, edges, and the serial unit's cycles. -/

namespace Sys2Proof.Machine

/-- Two runs of events in a row are one. -/
theorem handleAll_append (es es' : List Event) (s : State) :
    handleAll (es ++ es') s =
      match handleAll es s with
      | .next t => handleAll es' t
      | .fault f => .fault f
      | .refused r => .refused r := by
  induction es generalizing s with
  | nil => rfl
  | cons e es ih => simp only [List.cons_append, handleAll]; cases handleEvent e s <;> simp [ih]

/-- A run that goes on past `n + 1` events came through a state after `n` (R158). -/
theorem eventRun_succ_cases {es : Nat → Event} {s t : State} {n : Nat} (h : eventRun es s (n + 1) = .next t) :
    ∃ u, eventRun es s n = .next u ∧ handleEvent (es n) u = .next t := by
  simp only [eventRun] at h
  split at h
  · next u hu => exact ⟨u, hu, h⟩
  · simp at h
  · simp at h

/-- The beginning of an unbounded run is a finite one (R158). -/
theorem eventRun_eq_handleAll (es : Nat → Event) (s : State) (n : Nat) :
    eventRun es s n = handleAll ((List.range n).map es) s := by
  induction n with
  | zero => rfl
  | succ n ih =>
    rw [List.range_succ, List.map_append, handleAll_append, eventRun, ih]
    cases handleAll ((List.range n).map es) s with
    | next t => simp only [List.map_cons, List.map_nil, handleAll]; cases handleEvent (es n) t <;> rfl
    | fault f => rfl
    | refused r => rfl

/-- An edge with `rst = 0` that accepts no command takes a beat or does nothing (R67). -/
theorem clockEdge_of_not_accepts {ready : Bool} {p : PortInputs} (s : State) (hr : p.rst = false)
    (ha : acceptsCommand ready p = false) :
    clockEdge ready p s = .next (if takesBeat p s then takeBeat s else s) := by
  simp only [clockEdge, edgeEvents, hr, ha]
  by_cases h : takesBeat p s <;> simp [h, handleAll, handleEvent]

/-- The serial unit's last cycle, taken out (R161). -/
theorem serialCycles_succ (p : Word) (n : Nat) (u : SerialUnit) :
    serialCycles p (n + 1) u = serialCycle p (serialCycles p n u) := by
  induction n generalizing u with
  | zero => rfl
  | succ n ih => rw [serialCycles, ih]; rfl

/-- No command changes the stream of free values. -/
theorem exec_stream {i : Instr} {s t : State} (h : exec i s = .next t) : t.stream = s.stream := by
  rcases exec_cases h with ⟨_, rfl⟩ | ⟨_, _, _, _, rfl⟩ | ⟨_, _, _, rfl⟩ | ⟨_, _, _, _, _, rfl⟩ | ⟨_, _, _, _, rfl⟩ <;> simp

end Sys2Proof.Machine
end

