-- ==== Sys2Proof/Tests/Slice0.lean ====
section
/-! SUPPORT. Tests from the spec's own vectors (`95_test_vectors.md`), the smoke test of well-formedness, and for every
statement with hypotheses a state and operands that meet them all. -/

namespace Sys2Proof.Tests
open Sys2Proof.Machine

/-- The spec's default `POLYNOMIAL`, on which the numeric vectors rest (R7). -/
def vectorPoly : Word := 0x04C11DB7

/-- A state `(OPEN, CRC)` of the V-X vectors, with an instance of the default `POLYNOMIAL`. -/
def st (isOpen : Bool) (crc : Option Word) : State :=
  { State.resetWith { polynomial := vectorPoly } with isOpen := isOpen, crc := crc }

/-- The next state, if there is one. -/
def nextOf : Host.Outcome State Fault Refusal → Option State
  | .next t => some t
  | .fault _ => none
  | .refused _ => none

/-- The reason of a refusal, if it is one. -/
def refusalOf : Host.Outcome State Fault Refusal → Option Refusal
  | .next _ => none
  | .fault _ => none
  | .refused r => some r

/-- What a V-X row shows: `OPEN`, `CRC`, and the queue. -/
def shown (o : Host.Outcome State Fault Refusal) : Option (Bool × Option Word × List Beat) :=
  (nextOf o).map (fun t => (t.isOpen, t.crc, t.rsp))

-- Well-formedness: its one check is the width of `bits` (R60); the reserved values pass (R64).

theorem test_wellFormed_refuses_bits_64 : (Instr.reflect 0 64).wellFormed = false := by decide
theorem test_wellFormed_reserved_bits : (Instr.reflect 0 63).wellFormed = true ∧ (Instr.reflect 0 0).wellFormed = true := by
  decide

-- Decoding: words from R68, V-X and P3, and each row's canonical form.

theorem test_decode_init : decode 0b00_111111_11111111111111111111111111111111#40 = .init := by decide
theorem test_decode_word : decode 0b01_010101_00000000000000000000000000010000#40 = .word 0x10 := by decide
theorem test_decode_final : decode 0b10_010101_00010010001101000101011001111000#40 = .final := by decide
theorem test_decode_reflect : decode 0b11_001000_00000000000000000000000110100101#40 = .reflect 0x1A5 8 := by decide
theorem test_canonical_refuses :
    canonicalWord 0x3FFFFFFFFF#40 = false ∧ canonicalWord 0x5500000010#40 = false ∧
    canonicalWord 0x9512345678#40 = false ∧ canonicalWord 0xE012345678#40 = true := by decide
theorem test_encode_canonical :
    encode .init = 0x0000000000#40 ∧ encode (.word 0xDEADBEEF) = 0x40DEADBEEF#40 ∧ encode .final = 0x8000000000#40 ∧
    encode (.reflect 0x16 5) = 0xC500000016#40 := by decide
theorem test_table_word : decodeTableWord 40 0x9512345678 = some .final ∧ decodeTableWord 48 0x10000000000 = none := by
  decide

-- The function layer: V-M, V-B, V-T1, V-T2, V-W, V-F, V-C, V-P.

theorem test_reflect_masks_input : reflect 0xFFFF1234 ⟨16, by decide⟩ = 0x00002C48 := by decide
theorem test_reflect_31 : reflect 0x80000001 ⟨31, by decide⟩ = 0x40000000 := by decide
theorem test_reflect_32 : reflect 0x12345678 Width.full = 0x1E6A2C48 := by decide +kernel
theorem test_bitstep_no_feedback : bitstep vectorPoly 0x12345678 false = 0x2468ACF0 := by decide
theorem test_bitstep_feedback : bitstep vectorPoly 0x87654321 false = 0x0A0B9BF5 := by decide
theorem test_foldWord_first_bit : foldWord vectorPoly 0xFFFFFFFF 0x00000001 = 0x61E2E066 := by decide +kernel
theorem test_foldWord_last_bit : foldWord vectorPoly 0 0x80000000 = 0x04C11DB7 := by decide +kernel
theorem test_finalize_reflects : finalize 0x00000001 = 0x7FFFFFFF := by decide +kernel
theorem test_finalize : finalize 0x61E2E066 = 0x99F8B879 := by decide +kernel
theorem test_calculateCrc_two_words :
    calculateCrc vectorPoly [0x00000001, 0x00000010] 2 = some 0xF9918868 := by decide +kernel
theorem test_calculateCrc_prefix :
    calculateCrc vectorPoly [0x00000001, 0x00000010, 0x00000000] 2 = some 0xF9918868 := by decide +kernel
theorem test_calculateCrc_too_long : calculateCrc vectorPoly [0x00000001] 2 = none := by decide +kernel
theorem test_calculateCrc_other_polynomial :
    calculateCrc 0x1EDC6F41 [0x00000001, 0x00000010] 2 = some 0x2C707E90 := by decide +kernel

-- The commands: V-X.

theorem test_init_abandons : shown (exec .init (st true (some 0x61E2E066))) = some (true, some 0xFFFFFFFF, []) := by decide
theorem test_word : shown (exec (.word 0x10) (st true (some 0x61E2E066))) = some (true, some 0xE9EE7660, []) := by
  decide +kernel
theorem test_word_refused : refusalOf (exec (.word 1) (st false none)) = some .wordOutsideCall := by decide
theorem test_final : shown (exec .final (st true (some 0xE9EE7660))) =
    some (false, none, [{ kind := .result, data := 0xF9918868 }]) := by decide +kernel
theorem test_final_refused : refusalOf (exec .final (st false none)) = some .finalOutsideCall := by decide
theorem test_reflect : shown (exec (.reflect 0xFFFF1234 16) (st true (some 0x61E2E066))) =
    some (true, some 0x61E2E066, [{ kind := .reflected, data := 0x00002C48 }]) := by decide +kernel
theorem test_reflect_33_one_beat : ((nextOf (exec (.reflect 5 33) (st false none))).map
    (fun t => (t.isOpen, t.crc, t.rsp.map (fun b => b.kind)))) = some (false, none, [.reflected]) := by decide
theorem test_beat_bits : beatBits { kind := .reflected, data := 0x1E6A2C48 } = 0x11E6A2C48#33 := by decide
theorem test_reset_mid_call : shown (handleEvent .reset { st true (some 0x61E2E066) with rsp := [⟨.reflected, 0x80⟩] }) =
    some (false, none, []) := by decide
theorem test_text : textOf (.reflect 0x12345678 32) = "REFLECT 0x12345678, 32".toList := by decide
theorem test_parse : parseLine "WORD 0xDEADBEEF    ; Block ID".toList = some (.word 0xDEADBEEF) := by decide +kernel
theorem test_parse_refuses_bits_64 : parseLine "REFLECT 0x00000000, 64".toList = none := by decide +kernel

-- Hypotheses met: one theorem for each statement that has some, at the ends of the ranges it names.

/-- A state in a call, the host about to do `es`. -/
def ready (es : List Event) : State := { st true (some 0x61E2E066) with inputs := es }

/-- The same with a beat in the queue. -/
def queued (es : List Event) : State := { ready es with rsp := [⟨.reflected, 0x80⟩] }

theorem test_hypotheses_OneTableRowAcceptsEachWord :
    ∃ r ∈ opcodeTable, r.accepts 0x7FFFFFFFFF#40 = true := ⟨_, .tail _ (.head _), by decide⟩
theorem test_hypotheses_DecodeOfEncodeIsIdentity :
    (Instr.reflect 0xFFFFFFFF 0).wellFormed = true ∧ (Instr.reflect 0xFFFFFFFF 63).wellFormed = true := by decide
theorem test_hypotheses_TextFormReadsBack :
    (Instr.reflect 0xFFFFFFFF 9).wellFormed = true ∧ (Instr.reflect 0xFFFFFFFF 10).wellFormed = true := by decide
theorem test_hypotheses_StepRunsTheAcceptedCommand :
    (ready [.command 0x8000000000#40]).inputs = .command 0x8000000000#40 :: [] ∧ 0xFFFFFFFFFF < 2 ^ 40 := by decide
theorem test_hypotheses_StepRunsTheHostsOtherEvents :
    (ready []).inputs = [] ∧
    ((queued [.take]).inputs = .take :: [] ∧ (queued [.take]).rsp = ⟨.reflected, 0x80⟩ :: []) ∧
    ((ready [.take]).inputs = .take :: [] ∧ (ready [.take]).rsp = []) ∧
    (queued [.reset]).inputs = .reset :: [] := by decide
theorem test_hypotheses_StepKeepsCrcValid :
    ∃ t, crcValid (ready [.command 0x8000000000#40]) = true ∧ step (ready [.command 0x8000000000#40]) = .next t :=
  ⟨_, by decide, rfl⟩
theorem test_hypotheses_NoStepChangesPolynomial : ∃ t, step (queued [.reset]) = .next t := ⟨_, rfl⟩
theorem test_hypotheses_InitOpensACall : ∃ t, exec .init (st false none) = .next t := ⟨_, rfl⟩
theorem test_hypotheses_WordFoldsInsideACallOnly :
    ((ready []).isOpen = true ∧ (ready []).crc = some 0x61E2E066) ∧ (st false none).isOpen = false := by decide
theorem test_hypotheses_FinalReturnsInsideACallOnly :
    ((ready []).isOpen = true ∧ (ready []).crc = some 0x61E2E066) ∧ (st false none).isOpen = false := by decide
theorem test_hypotheses_ReflectAnswersInEveryState :
    (∃ low high : Nat, (1 ≤ low ∧ low ≤ 32) ∧ (1 ≤ high ∧ high ≤ 32) ∧ low = 1 ∧ high = 32) ∧
    ∃ a b c : Nat, (a = 0 ∨ 33 ≤ a) ∧ (b = 0 ∨ 33 ≤ b) ∧ (c = 0 ∨ 33 ≤ c) ∧ a = 0 ∧ b = 33 ∧ c = 63 :=
  ⟨⟨1, 32, by decide⟩, 0, 33, 63, by decide⟩
theorem test_hypotheses_CommandsCompleteExactlyWhereLegal :
    crcValid (ready []) = true ∧ crcValid (st false none) = true := by decide
theorem test_hypotheses_ResponseBeats :
    (∃ t, exec .init (st false none) = .next t) ∧ (∃ t, exec .final (ready []) = .next t) ∧
    (∃ t, exec (.reflect 5 33) (ready []) = .next t) := ⟨⟨_, rfl⟩, ⟨_, rfl⟩, ⟨_, rfl⟩⟩
theorem test_hypotheses_RegisterWithinACall : [Instr.word 1, .reflect 0x16 5, .word 0x10].all insideCall = true := by
  decide
theorem test_hypotheses_CallReturnsCalculateCrc : [Instr.word 1, .reflect 0x16 5, .word 0x10].all insideCall = true := by
  decide
theorem test_hypotheses_EveryResultComesFromACall :
    ∃ t u, (st false none).isOpen = false ∧ execAll [.init, .word 1] (st false none) = .next t ∧ exec .final t = .next u :=
  ⟨_, _, rfl, rfl, rfl⟩
theorem test_hypotheses_ResultIndependentOfEarlierHistory :
    ∃ t₁ t₂, (st false none).config = (queued []).config ∧ [Instr.word 1].all insideCall = true ∧
      [Instr.reflect 5 8, .word 1].all insideCall = true ∧ wordsOf [.word 1] = wordsOf [.reflect 5 8, .word 1] ∧
      execAll (.init :: ([.word 1] ++ [.final])) (st false none) = .next t₁ ∧
      execAll (.init :: ([.reflect 5 8, .word 1] ++ [.final])) (queued []) = .next t₂ :=
  ⟨_, _, rfl, rfl, rfl, rfl, rfl, rfl⟩
theorem test_hypotheses_RunDependsOnAcceptedCommandsOnly :
    withoutReset [.command 0x0000000000#40, .take, .command 0x8000000000#40] = true ∧
    (∃ t, handleAll [.command 0x0000000000#40, .take, .command 0x8000000000#40] (queued []) = .next t) ∧
    withoutReset [.take, .command 0x8000000000#40] = true ∧
    handleAll [.take, .command 0x8000000000#40] (st false none) = .refused .finalOutsideCall :=
  ⟨by decide, ⟨_, rfl⟩, by decide, rfl⟩
theorem test_hypotheses_BracketedHostIsNeverRefused :
    (crcValid (st false none) = true ∧ bracketed (st false none).isOpen
      [.command 0x0000000000#40, .command 0x4000000001#40, .take, .command 0x8000000000#40, .reset] = true) ∧
    (crcValid (ready []) = true ∧ bracketed (ready []).isOpen [.command 0x8000000000#40] = true) := by decide
theorem test_hypotheses_ReflectMirrorsTheLowBits : 0 < 32 ∧ 31 < 32 := by decide
theorem test_hypotheses_LawsOfReflect :
    ∃ one : Width, one = ⟨1, by decide⟩ ∧ (1 : Word).toNat < 2 ^ one.val ∧ 0 < one.val ∧
      (0xFFFFFFFF : Word).toNat < 2 ^ Width.full.val ∧ 31 < Width.full.val := ⟨⟨1, by decide⟩, by decide⟩
theorem test_hypotheses_BitstepBitByBit : ∃ j k : Nat, (1 ≤ j ∧ j ≤ 31) ∧ (1 ≤ k ∧ k ≤ 31) ∧ j = 1 ∧ k = 31 :=
  ⟨1, 31, by decide⟩
theorem test_hypotheses_CalculateCrcReadsExactlyLength :
    2 ≤ [(0x00000001 : Word), 0x00000010].length ∧ [(0x00000001 : Word), 0x00000010].length < 3 := by decide
theorem test_hypotheses_ResultIsAffineOverXor :
    [(1 : Word), 2].length = [(0x10 : Word), 0x20].length ∧ [(0x10 : Word), 0x20].length = [(0xFFFFFFFF : Word), 0].length := by
  decide
/-- A ready serial unit that holds what `ready []` holds. -/
def serialUnit : SerialUnit :=
  { crc := 0x61E2E066, block := 0, bitCount := 0, isOpen := true, cmdReady := true, rsp := [] }

theorem test_hypotheses_SerialUnitComputesFoldWord : 0 ≤ 32 ∧ 31 ≤ 32 ∧ 32 ≤ 32 := by decide
theorem test_hypotheses_SerialUnitRefinesTheCommands :
    (∃ t, serialHolds serialUnit (ready []) ∧ exec (.word 0x10) (ready []) = .next t ∧ 31 < serialLatency (.word 0x10) - 1) ∧
    (∃ t, exec (.reflect 5 33) (ready []) = .next t) :=
  ⟨⟨_, ⟨rfl, rfl, rfl, fun _ h => Option.some.inj h⟩, rfl, by decide⟩, _, rfl⟩
theorem test_serial_final : (serialAccept 0 .final { serialUnit with crc := 0xE9EE7660 }).rsp = [⟨.result, 0xF9918868⟩] := by
  decide +kernel

/-- A sequence without an end: `INIT`, `WORD 1`, `FINAL`, and from then on the host takes beats. -/
def oneCall (n : Nat) : Event :=
  match n with
  | 0 => .command 0x0000000000#40
  | 1 => .command 0x4000000001#40
  | 2 => .command 0x8000000000#40
  | _ => .take

/-- `INIT`, `WORD 1`, a reset, and then nothing but takes. -/
def brokenCall (n : Nat) : Event := if n = 2 then .reset else oneCall n

/-- `INIT`, `WORD 1`, a second `INIT`, and then nothing but takes. -/
def reopenedCall (n : Nat) : Event := if n = 2 then oneCall 0 else oneCall n

theorem test_oneCall_inProgress : inProgress oneCall 0 2 :=
  ⟨by decide, by decide, fun j h h' => by rw [show j = 1 by omega]; decide⟩
theorem test_hypotheses_UnboundedRunIsStepByStep :
    crcValid (st true (some 0)) = true ∧
    ∀ n, bracketed (st true (some 0)).isOpen ((List.range n).map (fun _ => Event.command 0x4000000001#40)) = true := by
  refine ⟨by decide, fun n => ?_⟩
  rw [List.map_const', List.length_range]
  induction n with
  | zero => rfl
  | succ n ih => exact ih
theorem test_hypotheses_CompleteCallsBeatIsItsResult :
    callComplete oneCall (st false none) 0 2 4 ⟨.result, finalize (foldWord vectorPoly 0xFFFFFFFF 1)⟩ :=
  ⟨test_oneCall_inProgress, by decide, by decide, fun j h h' => by rw [show j = 3 by omega]; decide, _, _, rfl, rfl, rfl⟩
theorem test_hypotheses_UnfinishedCallHasNoResult :
    (∃ t u, inProgress oneCall 0 2 ∧ eventRun oneCall (queued []) 0 = .next t ∧ eventRun oneCall (queued []) 2 = .next u) ∧
    callAbandoned brokenCall 0 2 ∧ callAbandoned reopenedCall 0 2 :=
  ⟨⟨_, _, test_oneCall_inProgress, rfl, rfl⟩,
    ⟨⟨by decide, by decide, fun j h h' => by rw [show j = 1 by omega]; decide⟩, .inr rfl⟩,
    ⟨by decide, by decide, fun j h h' => by rw [show j = 1 by omega]; decide⟩, .inl (by decide)⟩

/-- An edge with nothing offered. -/
def quiet : PortInputs := { rst := false, cmdValid := false, cmd := 0, rspReady := false }

theorem test_hypotheses_EdgesFollowTheHandshake :
    (∃ t, ({ quiet with rst := true, cmdValid := true, rspReady := true } : PortInputs).rst = true ∧
      clockEdge true { quiet with rst := true, cmdValid := true, rspReady := true } (queued []) = .next t) ∧
    ({ quiet with cmdValid := true, rspReady := true } : PortInputs).rst = false ∧
    (quiet.rst = false ∧ (quiet.cmdValid && true) = false ∧ ((portOutputs true quiet (queued [])).rspValid && quiet.rspReady) = false) :=
  ⟨⟨_, rfl, rfl⟩, rfl, by decide⟩
theorem test_hypotheses_UntakenBeatIsHeld :
    ∃ t, ({ quiet with cmdValid := true, cmd := 0x8000000000#40 } : PortInputs).rst = false ∧
      ({ quiet with cmdValid := true, cmd := 0x8000000000#40 } : PortInputs).rspReady = false ∧
      (portOutputs true { quiet with cmdValid := true, cmd := 0x8000000000#40 } (queued [])).rspValid = true ∧
      clockEdge true { quiet with cmdValid := true, cmd := 0x8000000000#40 } (queued []) = .next t :=
  ⟨_, rfl, rfl, by decide, rfl⟩
theorem test_hypotheses_HeldCommandIsTheOneAccepted :
    ∃ p : PortInputs, p.cmdValid = true ∧ [p, p].all (fun p => !p.rst) = true ∧ p.rst = false ∧
      hostHoldsThroughout ([p, p].map (fun p => (false, p)) ++ [(true, p)]) = true :=
  ⟨{ quiet with cmdValid := true, cmd := 0x4000000001#40 }, by decide⟩
theorem test_hypotheses_QueueDepthIsKept :
    ∃ t, (queued []).rsp.length ≤ 1 ∧
      cmdReadyKeeps 1 true { quiet with cmdValid := true, cmd := 0x8000000000#40, rspReady := true } (queued []) = true ∧
      clockEdge true { quiet with cmdValid := true, cmd := 0x8000000000#40, rspReady := true } (queued []) = .next t :=
  ⟨_, by decide, by decide, rfl⟩
/-- A host that offers `FINAL` for ever and takes every beat, to a block that is ready from the edge `1` on. -/
def patient (n : Nat) : Bool × PortInputs :=
  (decide (1 ≤ n), { quiet with cmdValid := true, cmd := 0x8000000000#40, rspReady := true })

theorem test_hypotheses_OfferedCommandIsEventuallyAccepted :
    1 ≤ 1 ∧ (∀ n, (patient n).2.rst = false) ∧ (patient 0).2.cmdValid = true ∧
    (∀ n, hostHolds (patient n).1 (patient n).2 (patient (n + 1)).2 = true) ∧
    hostTakesEventually patient (queued []) ∧ weaklyFair 1 patient (queued []) ∧
    acceptsCommand (patient 0).1 (patient 0).2 = false :=
  ⟨by decide, fun _ => rfl, rfl, fun n => by simp [hostHolds, patient], fun n _ _ _ => ⟨n, le_rfl, rfl, rfl⟩,
    fun n _ => ⟨n + 1, by omega, by simp [patient]⟩, by decide⟩
theorem test_cmdReady_full_queue :
    cmdReadyKeeps 1 true { quiet with cmdValid := true, cmd := 0x8000000000#40 } (queued []) = false := by decide
theorem test_hypotheses_InstancesDoNotInterfere :
    ∃ m₁ m₂, (0 : Nat) ≠ 1 ∧
      stepInstance 0 [ready [.command 0x4000000001#40], queued [.take]] = some (.next m₁) ∧
      stepInstance 1 m₁ = some (.next m₂) ∧
      sharesConfig { polynomial := vectorPoly } [ready [.command 0x4000000001#40], queued [.take]] = true :=
  ⟨_, _, by decide, rfl, rfl, by decide⟩
theorem test_hypotheses_InstancesShareOnlyTheConstant :
    ∃ m₁, ownStreams (resetInstances 2 { polynomial := vectorPoly }) = true ∧
      sharesConfig { polynomial := vectorPoly } (resetInstances 2 { polynomial := vectorPoly }) = true ∧
      stepInstance 1 (resetInstances 2 { polynomial := vectorPoly }) = some (.next m₁) := ⟨_, by decide, by decide, rfl⟩

end Sys2Proof.Tests
end

-- The step: which event it takes, and what no step changes

section

namespace Sys2Proof.Machine

/-- A step takes the host's next event (R13). -/
theorem step_of_inputs {s : State} {e : Event} {rest : List Event} (h : s.inputs = e :: rest) :
    step s = handleEvent e { s with inputs := rest } := by
  unfold step; rw [h]

/-- The table's view of a value that fits 40 bits is the decoder itself (R69). -/
theorem decodeTableWord_of_lt {w : Nat} (h : w < 2 ^ 40) :
    decodeTableWord 40 w = some (decode (BitVec.ofNat 40 w)) := by
  simp only [decodeTableWord, Nat.mod_eq_of_lt h, if_pos h]

theorem withFetchWord_of_lt (s : State) {w : Nat} (h : w < 2 ^ 40) :
    s.withFetchWord 40 w = offerCommand (BitVec.ofNat 40 w) s := by
  rw [State.withFetchWord, Nat.mod_eq_of_lt h]

/-- The step of a block that is offered a command executes it, in the state before the offer (R67). -/
theorem step_offerCommand (c : CommandWord) (s : State) : step (offerCommand c s) = exec (decode c) s :=
  step_of_inputs (offerCommand_inputs c s)

/-- No command changes the constant (R25). -/
theorem exec_config {i : Instr} {s t : State} (h : exec i s = .next t) : t.config = s.config := by
  rcases exec_cases h with ⟨_, rfl⟩ | ⟨_, _, _, _, rfl⟩ | ⟨_, _, _, rfl⟩ | ⟨_, _, _, _, _, rfl⟩ | ⟨_, _, _, _, rfl⟩ <;> simp

/-- No event changes the constant or the stream of free values (R25, R53). -/
theorem handleEvent_config_stream {e : Event} {s t : State} (h : handleEvent e s = .next t) :
    t.config = s.config ∧ t.stream = s.stream := by
  rcases handleEvent_cases h with ⟨c, -, hc⟩ | ⟨-, rfl⟩ | ⟨-, rfl⟩
  · exact ⟨exec_config hc, exec_stream hc⟩
  · exact ⟨takeBeat_config s, takeBeat_stream s⟩
  · exact ⟨resetBlock_config s, resetBlock_stream s⟩

/-- No step changes the constant or the stream of free values (R25, R53). -/
theorem step_config_stream {s t : State} (h : step s = .next t) : t.config = s.config ∧ t.stream = s.stream := by
  rcases step_cases h with ⟨-, rfl⟩ | ⟨e, rest, -, he⟩
  · exact ⟨rfl, rfl⟩
  · simpa using handleEvent_config_stream he

end Sys2Proof.Machine

end

-- The queue at one clock edge

section

namespace Sys2Proof.Machine

/-- `FINAL` and `REFLECT` lengthen `RSP` by one beat, `INIT` and `WORD` not at all (R65). -/
theorem exec_rsp_length {i : Instr} {s t : State} (h : exec i s = .next t) :
    t.rsp.length = s.rsp.length + if makesBeat i then 1 else 0 := by
  rcases exec_cases h with ⟨rfl, rfl⟩ | ⟨_, _, rfl, _, rfl⟩ | ⟨_, rfl, _, rfl⟩ | ⟨_, _, _, rfl, _, rfl⟩ | ⟨_, _, rfl, _, rfl⟩ <;>
    simp [makesBeat]

theorem handleAll_singleton (e : Event) (s : State) : handleAll [e] s = handleEvent e s := by
  simp only [handleAll]
  cases handleEvent e s <;> rfl

/-- The state an edge's command finds: the beat of this edge is taken first (log entry 10). -/
def afterTake (p : PortInputs) (s : State) : State := if takesBeat p s then takeBeat s else s

/-- The edge's take, as the events it is (R67). -/
theorem handleAll_take (p : PortInputs) (s : State) :
    handleAll (if takesBeat p s then [.take] else []) s = .next (afterTake p s) := by
  unfold afterTake
  split <;> rfl

/-- What `beatsLeft` counts: the beats of that state. -/
theorem length_rsp_afterTake (p : PortInputs) (s : State) : (afterTake p s).rsp.length = beatsLeft p s := by
  unfold afterTake beatsLeft
  split
  · rw [takeBeat_rsp, List.length_tail]
  · rfl

theorem beatsLeft_le (p : PortInputs) (s : State) : beatsLeft p s ≤ s.rsp.length := by
  unfold beatsLeft
  split <;> omega

/-- Reset wins at an edge (R134, R150). -/
theorem clockEdge_of_rst (ready : Bool) {p : PortInputs} (s : State) (hr : p.rst = true) :
    clockEdge ready p s = .next (resetBlock s) := by
  simp [clockEdge, edgeEvents, hr, handleAll_singleton, handleEvent]

/-- An edge that accepts a command executes it after the take (R67). -/
theorem clockEdge_of_accepts {ready : Bool} {p : PortInputs} (s : State) (hr : p.rst = false)
    (ha : acceptsCommand ready p = true) : clockEdge ready p s = exec (decode p.cmd) (afterTake p s) := by
  simp [clockEdge, edgeEvents, hr, ha, handleAll_append, handleAll_take, handleAll_singleton, handleEvent]

/-- A command that makes a beat is accepted only with room for it (R8, R156). -/
theorem beatsLeft_lt_of_accepts {depth : Nat} {ready : Bool} {p : PortInputs} {s : State}
    (hk : cmdReadyKeeps depth ready p s = true) (ha : acceptsCommand ready p = true)
    (hm : makesBeat (decode p.cmd) = true) : beatsLeft p s < depth := by
  simp_all [cmdReadyKeeps, acceptsCommand, readyWire, hasRoom]

end Sys2Proof.Machine

end

-- Several blocks side by side

section

namespace Sys2Proof.Machine

/-- A step among several blocks that answers a next list is the chosen block's own step (R53). -/
theorem stepInstance_cases {k : Nat} {m m₁ : List State} (h : stepInstance k m = some (.next m₁)) :
    ∃ s t, m[k]? = some s ∧ step s = .next t ∧ m₁ = m.set k t := by
  unfold stepInstance at h
  split at h
  · simp at h
  · next s hs =>
    split at h
    · next t ht => exact ⟨s, t, hs, ht, by simpa using h.symm⟩
    · simp at h
    · simp at h

/-- What no step changes of a block's own state, no step of any block changes along the list. -/
theorem stepInstance_map {α : Type} {f : State → α} (hf : ∀ s t, step s = .next t → f t = f s) {k : Nat}
    {m m₁ : List State} (h : stepInstance k m = some (.next m₁)) : m₁.map f = m.map f := by
  obtain ⟨s, t, hs, ht, rfl⟩ := stepInstance_cases h
  obtain ⟨hk, rfl⟩ := List.getElem?_eq_some_iff.mp hs
  rw [List.map_set, hf _ t ht, ← List.map_set, List.set_getElem_self]

theorem sharesConfig_eq_all_map (config : Config) (m : List State) :
    sharesConfig config m = (m.map State.config).all (fun c => decide (c = config)) := by
  rw [sharesConfig, List.all_map]; rfl

/-- The instances' streams stay what they are (R53). -/
theorem stepInstance_ownStreams {k : Nat} {m m₁ : List State} (h : stepInstance k m = some (.next m₁)) :
    ownStreams m₁ = ownStreams m := by
  simp only [ownStreams, stepInstance_map (fun _ _ ht => (step_config_stream ht).2) h]

/-- The constant stays shared, or not, as it was (R25). -/
theorem stepInstance_sharesConfig (config : Config) {k : Nat} {m m₁ : List State}
    (h : stepInstance k m = some (.next m₁)) : sharesConfig config m₁ = sharesConfig config m := by
  simp only [sharesConfig_eq_all_map, stepInstance_map (fun _ _ ht => (step_config_stream ht).1) h]

/-- Block `k` of the reset list draws from stream `k`. -/
theorem map_stream_resetInstances (n : Nat) (config : Config) :
    (resetInstances n config).map State.stream = List.range n := by
  rw [resetInstances, List.map_map]
  exact List.map_id _

theorem ownStreams_resetInstances (n : Nat) (config : Config) : ownStreams (resetInstances n config) = true := by
  simp only [ownStreams, map_stream_resetInstances, List.nodup_range, decide_true]

theorem sharesConfig_resetInstances (n : Nat) (config : Config) :
    sharesConfig config (resetInstances n config) = true := by
  simp [sharesConfig, resetInstances]

end Sys2Proof.Machine

end

-- The scope's obligations (00_scope.md)

section

namespace Sys2Proof.Machine

/-- Settles O45: a reset empties `RSP`, and otherwise the take comes first and only a command with room adds a beat. -/
theorem queueDepthIsKept : Obligations.QueueDepthIsKept := by
  intro depth ready p s t hlen hkeeps hedge
  have hleft : beatsLeft p s ≤ depth := (beatsLeft_le p s).trans hlen
  cases hr : p.rst with
  | true =>
    obtain rfl : resetBlock s = t := by simpa [clockEdge_of_rst ready s hr] using hedge
    simp
  | false =>
    cases ha : acceptsCommand ready p with
    | false =>
      obtain rfl : afterTake p s = t := by simpa [clockEdge_of_not_accepts s hr ha, afterTake] using hedge
      rwa [length_rsp_afterTake]
    | true =>
      rw [clockEdge_of_accepts s hr ha] at hedge
      rw [exec_rsp_length hedge, length_rsp_afterTake]
      split
      · next hm => exact beatsLeft_lt_of_accepts hkeeps ha hm
      · exact hleft

/-- Settles O52: the reset list has the streams `0` to `count - 1`, and no step changes a stream or the constant. -/
theorem instancesShareOnlyTheConstant : Obligations.InstancesShareOnlyTheConstant := by
  refine ⟨fun count config => ⟨?_, sharesConfig_resetInstances count config, ownStreams_resetInstances count config⟩,
    fun m m₁ k h => ⟨fun hs => ?_, fun config hc => ?_⟩⟩
  · simp [resetInstances]
  · rwa [stepInstance_ownStreams h]
  · rwa [stepInstance_sharesConfig config h]

/-- Settles O7: a step takes the next event, and `withFetchWord` offers exactly the word that the table's view reads. -/
theorem stepRunsTheAcceptedCommand : Obligations.StepRunsTheAcceptedCommand := by
  refine ⟨fun s c rest h => step_of_inputs h, fun s w hw => ⟨decodeTableWord_of_lt hw, ?_⟩⟩
  rw [withFetchWord_of_lt s hw, step_offerCommand]

end Sys2Proof.Machine

end

-- The invariant on `CRC` and `OPEN` (R22)

section

namespace Sys2Proof.Machine

theorem crcValid_iff {s : State} : crcValid s = true ↔ s.isOpen = s.crc.isSome := by
  rw [crcValid, beq_iff_eq]

/-- The invariant speaks of `OPEN` and `CRC` only. -/
theorem crcValid_congr {s t : State} (ho : t.isOpen = s.isOpen) (hc : t.crc = s.crc) : crcValid t = crcValid s := by
  rw [crcValid, crcValid, ho, hc]

/-- Every reset state meets the invariant, for any `POLYNOMIAL` (R31). -/
theorem crcValid_resetWith (c : Config) : crcValid (State.resetWith c) = true :=
  crcValid_iff.mpr (by simp)

theorem crcValid_resetBlock (s : State) : crcValid (resetBlock s) = true :=
  crcValid_iff.mpr (by simp)

/-- `INIT`, `WORD` and `FINAL` leave `OPEN` and `CRC` in step, whatever was before; `REFLECT` touches neither (R24). -/
theorem exec_crcValid {i : Instr} {s t : State} (hs : crcValid s = true) (h : exec i s = .next t) : crcValid t = true := by
  rcases exec_cases h with ⟨-, rfl⟩ | ⟨w, c, -, hc, rfl⟩ | ⟨c, -, -, rfl⟩ | ⟨v, n, w, -, -, rfl⟩ | ⟨v, n, -, -, rfl⟩
  · exact crcValid_iff.mpr (by simp)
  · obtain ⟨hopen, -⟩ := readCrc_eq_some.mp hc
    exact crcValid_iff.mpr (by simp [hopen])
  · exact crcValid_iff.mpr (by simp)
  · rwa [crcValid_congr (respond_isOpen ..) (respond_crc ..)]
  · rwa [crcValid_congr (s := s) (by simp) (by simp)]

theorem handleEvent_crcValid {e : Event} {s t : State} (hs : crcValid s = true) (h : handleEvent e s = .next t) :
    crcValid t = true := by
  rcases handleEvent_cases h with ⟨c, -, hc⟩ | ⟨-, rfl⟩ | ⟨-, rfl⟩
  · exact exec_crcValid hs hc
  · rwa [crcValid_congr (takeBeat_isOpen s) (takeBeat_crc s)]
  · exact crcValid_resetBlock s

theorem step_crcValid {s t : State} (hs : crcValid s = true) (h : step s = .next t) : crcValid t = true := by
  rcases step_cases h with ⟨-, rfl⟩ | ⟨e, rest, -, he⟩
  · exact hs
  · exact handleEvent_crcValid (s := { s with inputs := rest }) hs he

end Sys2Proof.Machine

end

-- The register within a call (R23)

section

namespace Sys2Proof.Machine

theorem execAll_cons_of_next {i : Instr} {is : List Instr} {s t : State} (h : exec i s = .next t) :
    execAll (i :: is) s = execAll is t := by
  rw [execAll, h]

/-- The Words of a call, its first command taken out. -/
theorem wordsOf_cons (i : Instr) (is : List Instr) : wordsOf (i :: is) = wordsOf [i] ++ wordsOf is := by
  cases i <;> rfl

/-- `REFLECT` completes in every state and does not disturb a call (R88, R89). -/
theorem execReflect_readCrc (v : Word) (n : Nat) (s : State) :
    ∃ t, execReflect v n s = .next t ∧ readCrc t = readCrc s := by
  unfold execReflect
  split
  · exact ⟨_, rfl, rfl⟩
  · exact ⟨_, rfl, rfl⟩

/-- A command inside a call completes, keeps the call open and folds its Word, if it has one, into the register
(R88, R111). -/
theorem exec_insideCall {i : Instr} {s : State} {c : Word} (hi : insideCall i = true) (hc : readCrc s = some c) :
    ∃ t, exec i s = .next t ∧ readCrc t = some ((wordsOf [i]).foldl (foldWord s.config.polynomial) c) := by
  cases i with
  | init => simp [insideCall] at hi
  | final => simp [insideCall] at hi
  | word w =>
    obtain ⟨hopen, -⟩ := readCrc_eq_some.mp hc
    exact ⟨_, execWord_of_readCrc hc w, readCrc_eq_some.mpr ⟨hopen, rfl⟩⟩
  | reflect v n =>
    obtain ⟨t, ht, hread⟩ := execReflect_readCrc v n s
    exact ⟨t, ht, hread.trans hc⟩

/-- The commands inside a call complete and fold the call's Words, in order, into the register (R23). -/
theorem execAll_insideCall {cs : List Instr} {s : State} {c : Word} (hcs : cs.all insideCall = true)
    (hc : readCrc s = some c) :
    ∃ t, execAll cs s = .next t ∧ readCrc t = some ((wordsOf cs).foldl (foldWord s.config.polynomial) c) := by
  induction cs generalizing s c with
  | nil => exact ⟨s, rfl, hc⟩
  | cons i is ih =>
    rw [List.all_cons, Bool.and_eq_true] at hcs
    obtain ⟨hi, his⟩ := hcs
    obtain ⟨u, hu, hread⟩ := exec_insideCall hi hc
    rw [execAll_cons_of_next hu, wordsOf_cons, List.foldl_append, ← exec_config hu]
    rw [← exec_config hu] at hread
    exact ih his hread

end Sys2Proof.Machine

end

-- The state's obligations (10_state.md)

section

namespace Sys2Proof.Machine

/-- Settles O12: whatever a step can have done keeps `OPEN` and `CRC` in step. -/
theorem stepKeepsCrcValid : Obligations.StepKeepsCrcValid :=
  fun _ _ => step_crcValid

/-- Settles O13: the constant is among what no step changes. -/
theorem noStepChangesPolynomial : Obligations.NoStepChangesPolynomial :=
  fun _ _ h => (step_config_stream h).1

/-- Settles O20: `INIT` sets the register to all-ones, and the commands inside the call fold their Words into it. -/
theorem registerWithinACall : Obligations.RegisterWithinACall := by
  intro s cs hcs
  have hinit : exec .init s = .next (setOpen (writeCrc Config.initValue s)) := rfl
  have hread : readCrc (setOpen (writeCrc Config.initValue s)) = some Config.initValue := rfl
  obtain ⟨t, ht, hcrc⟩ := execAll_insideCall hcs hread
  obtain ⟨hopen, hvalue⟩ := readCrc_eq_some.mp hcrc
  exact ⟨t, (execAll_cons_of_next hinit).trans ht, hopen, hvalue⟩

/-- Settles O10: a reset state and the state after the reset event, read field by field. -/
theorem resetLeavesNoCallAndNoBeats : Obligations.ResetLeavesNoCallAndNoBeats :=
  ⟨fun k => ⟨resetWith_isOpen k, resetWith_crc k, resetWith_rsp k, resetWith_config k⟩,
    ⟨defaultConfig, rfl⟩,
    fun s => ⟨resetBlock s, rfl, resetBlock_isOpen s, resetBlock_crc s, resetBlock_rsp s, resetBlock_config s⟩⟩

/-- Settles O11: the machine's reset state is one of the reset states. -/
theorem resetHasValidCrc : Obligations.ResetHasValidCrc :=
  crcValid_resetWith defaultConfig

end Sys2Proof.Machine

end

-- A run is its events in order: what the host does next is read by no command

section

namespace Sys2Proof.Machine

/-- The block with `es` as what the host does next, everything else as it stands (log entry 1). -/
def withInputs (es : List Event) (s : State) : State := { s with inputs := es }

/-- An outcome with its next state, if it has one, replaced by `f` of it. -/
def mapNext (f : State → State) : Host.Outcome State Fault Refusal → Host.Outcome State Fault Refusal
  | .next t => .next (f t)
  | .fault r => .fault r
  | .refused r => .refused r

theorem exec_withInputs (es : List Event) (i : Instr) (s : State) :
    exec i (withInputs es s) = mapNext (withInputs es) (exec i s) := by
  have hcrc : readCrc (withInputs es s) = readCrc s := rfl
  cases i with
  | init => rfl
  | word w => simp only [exec_word, execWord, hcrc]; cases readCrc s <;> rfl
  | final => simp only [exec_final, execFinal, hcrc]; cases readCrc s <;> rfl
  | reflect v n => simp only [exec_reflect, execReflect]; cases legalWidth n <;> rfl

theorem takeBeat_withInputs (es : List Event) (s : State) :
    takeBeat (withInputs es s) = withInputs es (takeBeat s) := by
  have hrsp : (withInputs es s).rsp = s.rsp := rfl
  simp only [takeBeat, hrsp]
  cases s.rsp <;> rfl

/-- An event does the same whatever the host does after it, and leaves that as it is (R50, R67). -/
theorem handleEvent_withInputs (es : List Event) (e : Event) (s : State) :
    handleEvent e (withInputs es s) = mapNext (withInputs es) (handleEvent e s) := by
  cases e with
  | command c => exact exec_withInputs es (decode c) s
  | take => exact congrArg Host.Outcome.next (takeBeat_withInputs es s)
  | reset => rfl

/-- The machine's step uses up the event in front (R13). -/
theorem step_withInputs_cons (e : Event) (es : List Event) (s : State) :
    step (withInputs (e :: es) s) = mapNext (withInputs es) (handleEvent e s) :=
  (step_of_inputs rfl).trans (handleEvent_withInputs es e s)

/-- As many steps as there are events in front are those events in order (R50, R158). -/
theorem run_withInputs_append (es rest : List Event) (s : State) :
    Host.Core.run core es.length (withInputs (es ++ rest) s) = handleAll es (withInputs rest s) := by
  induction es generalizing s with
  | nil => rfl
  | cons e es ih =>
    have hstep : core.step (withInputs (e :: (es ++ rest)) s) = mapNext (withInputs (es ++ rest)) (handleEvent e s) :=
      step_withInputs_cons e (es ++ rest) s
    simp only [List.length_cons, List.cons_append, Host.Core.run, handleAll, hstep, handleEvent_withInputs]
    cases handleEvent e s with
    | next t => exact ih t
    | fault r => rfl
    | refused r => rfl

end Sys2Proof.Machine

end

-- The bit stream the register sees (R44, R103)

section

namespace Sys2Proof.Machine

/-- The reflector turns a whole Word round (R81). -/
theorem getLsbD_reflect_full (w : Word) {i : Nat} (hi : i < 32) :
    (reflect w Width.full).getLsbD (31 - i) = w.getLsbD i := by
  have hmirror : 31 - (31 - i) = i := by omega
  have hlow : 31 - i < 32 := by omega
  rw [reflect, getLsbD_reflectLoop w _ _ le_rfl Width.full.property.2 _ hlow]
  simp [Width.full, hmirror, hlow]

/-- The first `n` passes over a reflected Word are the bit-steps over its low `n` bits, bit 0 first (R102). -/
theorem foldLoop_reflect (p w c : Word) {n : Nat} (hn : n ≤ 32) :
    foldLoop p (reflect w Width.full) c n = ((List.range n).map fun i => w.getLsbD i).foldl (bitstep p) c := by
  induction n with
  | zero => rfl
  | succ n ih =>
    rw [foldLoop_succ, ih (by omega), getLsbD_reflect_full w (by omega), List.range_succ, List.map_append,
      List.foldl_append]
    rfl

/-- A Word is folded least-significant bit first (R44). -/
theorem foldWord_eq_foldl_bitstep (p c w : Word) :
    foldWord p c w = ((List.range 32).map fun i => w.getLsbD i).foldl (bitstep p) c :=
  foldLoop_reflect p w c le_rfl

end Sys2Proof.Machine

end

-- Steps of two instances

section

namespace Sys2Proof.Machine

/-- A step of block `k` that completes is a step of the list. -/
theorem stepInstance_of_next {k : Nat} {m : List State} {s t : State} (hs : m[k]? = some s) (ht : step s = .next t) :
    stepInstance k m = some (.next (m.set k t)) := by
  simp only [stepInstance, hs, ht]

/-- A step of one block leaves every other block as it was (R53). -/
theorem stepInstance_getElem?_ne {m m₁ : List State} {j k : Nat} (hjk : j ≠ k)
    (h : stepInstance j m = some (.next m₁)) : m₁[k]? = m[k]? := by
  obtain ⟨s, t, -, -, rfl⟩ := stepInstance_cases h
  exact List.getElem?_set_ne hjk

/-- Completing steps of two blocks may change places (R53, R138). -/
theorem stepInstance_comm {m m₁ m₂ : List State} {j k : Nat} (hjk : j ≠ k)
    (hj : stepInstance j m = some (.next m₁)) (hk : stepInstance k m₁ = some (.next m₂)) :
    ∃ m₃, stepInstance k m = some (.next m₃) ∧ stepInstance j m₃ = some (.next m₂) := by
  obtain ⟨u, v, hu, hv, rfl⟩ := stepInstance_cases hk
  have hk' : stepInstance k m = some (.next (m.set k v)) :=
    stepInstance_of_next ((stepInstance_getElem?_ne hjk hj).symm.trans hu) hv
  obtain ⟨s, t, hs, ht, rfl⟩ := stepInstance_cases hj
  refine ⟨m.set k v, hk', ?_⟩
  rw [List.set_comm t v hjk]
  exact stepInstance_of_next ((stepInstance_getElem?_ne hjk.symm hk').trans hs) ht

end Sys2Proof.Machine

end

-- The obligations on sequences and instances (20_memory.md)

section

namespace Sys2Proof.Machine

/-- Settles O9: no event reads or changes what the host does after it, by induction on the events in front. -/
theorem runIsTheEventSequence : Obligations.RunIsTheEventSequence :=
  run_withInputs_append

/-- Settles O31: each Word is its own 32 bit-steps, and a fold over the stream is the fold of those folds. -/
theorem bitStreamOrder : Obligations.BitStreamOrder := by
  intro p ws
  rw [List.foldl_flatMap]
  simp only [← foldWord_eq_foldl_bitstep]
  rfl

/-- Settles O46: completing steps at two places commute, and each changes its own place only and no constant. -/
theorem instancesDoNotInterfere : Obligations.InstancesDoNotInterfere :=
  ⟨fun _ _ _ _ _ => stepInstance_comm, fun _ _ _ _ => stepInstance_getElem?_ne,
    fun config _ _ _ hm h => (stepInstance_sharesConfig config h).trans hm⟩

end Sys2Proof.Machine

end

-- Command words by their `op` (R60, R61, R63)

section

namespace Sys2Proof

@[simp] theorem decode_commandWord_init (b : BitVec 6) (d : Word) : decode (commandWord 0b00#2 b d) = .init := by
  simp [decode]

@[simp] theorem decode_commandWord_word (b : BitVec 6) (d : Word) : decode (commandWord 0b01#2 b d) = .word d := by
  simp [decode]

@[simp] theorem decode_commandWord_final (b : BitVec 6) (d : Word) : decode (commandWord 0b10#2 b d) = .final := by
  simp [decode]

@[simp] theorem decode_commandWord_reflect (b : BitVec 6) (d : Word) :
    decode (commandWord 0b11#2 b d) = .reflect d b.toNat := by
  simp [decode]

/-- What holds of the words of each `op`, whatever their other fields, holds of every command word (R61). -/
theorem forall_commandWord {P : CommandWord → Prop} (hinit : ∀ b d, P (commandWord 0b00#2 b d))
    (hword : ∀ b d, P (commandWord 0b01#2 b d)) (hfinal : ∀ b d, P (commandWord 0b10#2 b d))
    (hreflect : ∀ b d, P (commandWord 0b11#2 b d)) (c : CommandWord) : P c := by
  rw [← commandWord_fields c]
  rcases op_cases (opField c) with h | h | h | h <;> rw [h]
  · exact hinit _ _
  · exact hword _ _
  · exact hfinal _ _
  · exact hreflect _ _

/-- A well-formed command is read back from its encoding (R63). -/
theorem decode_encode {i : Instr} (hi : i.wellFormed = true) : decode (encode i) = i := by
  cases i with
  | init => exact decode_commandWord_init _ _
  | word w => exact decode_commandWord_word _ w
  | final => exact decode_commandWord_final _ _
  | reflect v n =>
    have hn : n < 2 ^ 6 := of_decide_eq_true hi
    rw [encode, decode_commandWord_reflect, BitVec.toNat_ofNat, Nat.mod_eq_of_lt hn]

/-- A field of 6 bits is a number below 64 (R60). -/
theorem wellFormed_decode (c : CommandWord) : (decode c).wellFormed = true := by
  revert c
  refine forall_commandWord (fun b d => ?_) (fun b d => ?_) (fun b d => ?_) fun b d => ?_
  · rw [decode_commandWord_init]; rfl
  · rw [decode_commandWord_word]; rfl
  · rw [decode_commandWord_final]; rfl
  · rw [decode_commandWord_reflect]; exact decide_eq_true b.isLt

/-- Encoding a decoded word keeps the fields its command uses and zeroes the others (R63). -/
theorem encode_decode (c : CommandWord) : encode (decode c) = usedFields c := by
  revert c
  refine forall_commandWord (fun b d => ?_) (fun b d => ?_) (fun b d => ?_) fun b d => ?_
  · simp [encode, usedFields, commandWord_and_opMask]
  · simp [encode, usedFields, commandWord_and_opDataMask]
  · simp [encode, usedFields, commandWord_and_opMask]
  · simp [encode, usedFields]

/-- The canonical form keeps `op` (R63). -/
theorem opField_encode_decode (c : CommandWord) : opField (encode (decode c)) = opField c := by
  revert c
  refine forall_commandWord (fun b d => ?_) (fun b d => ?_) (fun b d => ?_) fun b d => ?_ <;> simp [encode]

/-- A row of the table looks at `op` alone (R63). -/
theorem accepts_congr {r : OpcodeRow} (hr : r ∈ opcodeTable) {c c' : CommandWord} (h : opField c = opField c') :
    r.accepts c = true ↔ r.accepts c' = true := by
  rw [← commandWord_fields c, ← commandWord_fields c', accepts_commandWord r hr, accepts_commandWord r hr, h]

/-- The encoder's word is accepted by its own row of the table only (R61). -/
theorem rowOfEncoding (i : Instr) : Laws.RowOfEncoding.Statement i := by
  cases i with
  | init => exact Laws.RowOfEncoding.init
  | word w => exact Laws.RowOfEncoding.word w
  | final => exact Laws.RowOfEncoding.final
  | reflect v n => exact Laws.RowOfEncoding.reflect v n

/-- The row that accepts a word is the decoded command's (R61, R63). -/
theorem accepts_iff_mnemonic {r : OpcodeRow} (hr : r ∈ opcodeTable) (c : CommandWord) :
    r.accepts c = true ↔ r.mnemonic = (decode c).mnemonic := by
  obtain ⟨-, hrow⟩ := rowOfEncoding (decode c)
  exact (accepts_congr hr (opField_encode_decode c).symm).trans (hrow r hr)

/-- Every mnemonic has one row in the table (R61). -/
theorem existsUnique_row (m : Mnemonic) : ∃! r, r ∈ opcodeTable ∧ r.mnemonic = m := by
  have hunique : ∀ r ∈ opcodeTable, ∀ r' ∈ opcodeTable, r.mnemonic = r'.mnemonic → r = r' := by decide
  obtain ⟨r, hr, hm⟩ : ∃ r ∈ opcodeTable, r.mnemonic = m := by cases m <;> decide
  exact ⟨r, ⟨hr, hm⟩, fun r' ⟨hr', hm'⟩ => hunique r' hr' r hr (hm'.trans hm.symm)⟩

end Sys2Proof

end

-- The step of an idle block, and a take by what the queue holds

section

namespace Sys2Proof.Machine

/-- With nothing offered the block holds its state (R139). -/
theorem step_of_no_inputs {s : State} (h : s.inputs = []) : step s = .next s := by
  unfold step; rw [h]

theorem takeBeat_of_cons {s : State} {b : Beat} {bs : List Beat} (h : s.rsp = b :: bs) :
    takeBeat s = { s with rsp := bs, taken := s.taken ++ [b] } := by
  unfold takeBeat; rw [h]

theorem takeBeat_of_nil {s : State} (h : s.rsp = []) : takeBeat s = s := by
  unfold takeBeat; rw [h]

end Sys2Proof.Machine

end

-- Digits, and the ends of a line of text (R68, log entry 17)

section

namespace Sys2Proof.Machine

/-- The characters of a row of digits, each below 16. -/
def spell (ds : List Nat) : List Char := ds.map fun d => hexDigits.getD d '0'

theorem hexWord_eq_spell (v : Word) :
    hexWord v = spell ([7, 6, 5, 4, 3, 2, 1, 0].map fun k => v.toNat / 16 ^ k % 16) := rfl

theorem decimal_eq_spell (n : Nat) : decimal n = spell (if n < 10 then [n] else [n / 10, n % 10]) := by
  unfold decimal
  split <;> rfl

theorem mem_hexDigits_of_mem_spell {c : Char} {ds : List Nat} (h : c ∈ spell ds) : c ∈ hexDigits := by
  obtain ⟨d, -, rfl⟩ := List.mem_map.mp h
  by_cases hd : d < hexDigits.length
  · rw [← List.getElem_eq_getD (h := hd) '0']; exact List.getElem_mem hd
  · rw [List.getD_eq_default _ _ (Nat.le_of_not_lt hd)]; decide

theorem digitValue_getD {base d : Nat} (hbase : base ≤ 16) (hd : d < base) :
    digitValue base (hexDigits.getD d '0') = some d := by
  have hidx : ∀ d < 16, hexDigits.idxOf (hexDigits.getD d '0') = d := by decide
  simp only [digitValue, hidx d (hd.trans_le hbase), if_pos hd]

/-- One digit more, as `numberOf` reads it. -/
def readDigit (base : Nat) (acc : Option Nat) (c : Char) : Option Nat := do
  return (← acc) * base + (← digitValue base c)

theorem numberOf_of_ne_nil (base : Nat) {cs : List Char} (h : cs ≠ []) :
    numberOf base cs = cs.foldl (readDigit base) (some 0) := by
  cases cs with
  | nil => exact absurd rfl h
  | cons c cs => rfl

theorem foldl_readDigit_spell {base : Nat} (hbase : base ≤ 16) {ds : List Nat} (hds : ∀ d ∈ ds, d < base) (a : Nat) :
    (spell ds).foldl (readDigit base) (some a) = some (ds.foldl (fun n d => n * base + d) a) := by
  induction ds generalizing a with
  | nil => rfl
  | cons d ds ih =>
    obtain ⟨hd, hds⟩ := List.forall_mem_cons.mp hds
    have hread : readDigit base (some a) (hexDigits.getD d '0') = some (a * base + d) := by
      rw [readDigit, digitValue_getD hbase hd]; rfl
    exact (congrArg ((spell ds).foldl (readDigit base)) hread).trans (ih hds _)

/-- A row of digits is read as the number it spells in its base. -/
theorem numberOf_spell {base : Nat} (hbase : base ≤ 16) {ds : List Nat} (hne : ds ≠ []) (hds : ∀ d ∈ ds, d < base) :
    numberOf base (spell ds) = some (ds.foldl (fun n d => n * base + d) 0) := by
  rw [numberOf_of_ne_nil base (by simpa [spell] using hne), foldl_readDigit_spell hbase hds]

/-- Eight hexadecimal digits read back as the value they were written from (R68). -/
theorem parseWord_hexWord (v : Word) : parseWord (hexWord v) = some v := by
  have hvalue : [7, 6, 5, 4, 3, 2, 1, 0].foldl (fun n k => n * 16 + v.toNat / 16 ^ k % 16) 0 = v.toNat := by
    have := v.isLt
    simp only [List.foldl_cons, List.foldl_nil, Nat.reducePow]
    omega
  have hnumber : numberOf 16 (hexWord v) = some v.toNat := by
    rw [hexWord_eq_spell, numberOf_spell le_rfl (by simp) (by simp [Nat.mod_lt]), List.foldl_map, hvalue]
  have hlength : (hexWord v).length = 8 := rfl
  rw [parseWord, if_pos hlength, hnumber, Option.map_some, BitVec.ofNat_toNat, BitVec.setWidth_eq]

/-- A number of at most two decimal digits reads back (R60, R68). -/
theorem numberOf_decimal {n : Nat} (hn : n < 100) : numberOf 10 (decimal n) = some n := by
  rw [decimal_eq_spell]
  split
  · next h => simp [numberOf_spell (base := 10) (ds := [n]) (by decide) (by simp) (by simpa using h)]
  · have hten : n / 10 < 10 ∧ n % 10 < 10 := by omega
    rw [numberOf_spell (by decide) (by simp) (by simpa using hten)]
    exact congrArg some (by simp; omega)

/-- Spaces at the end of a text that ends in no space are dropped, and nothing else. -/
theorem rdropWhile_append_spaces {cs : List Char} (hlast : cs.getLast? ≠ some ' ') (n : Nat) :
    (cs ++ List.replicate n ' ').rdropWhile (· == ' ') = cs := by
  induction n with
  | zero =>
    rw [List.replicate_zero, List.append_nil, List.rdropWhile_eq_self_iff]
    intro hne hspace
    exact hlast (by simpa [List.getLast?_eq_some_getLast hne] using hspace)
  | succ n ih => rw [List.replicate_succ', ← List.append_assoc, List.rdropWhile_concat_pos _ _ _ (by decide), ih]

/-- A line without comment loses the spaces at its end (R68). -/
theorem stripComment_append_spaces {cs : List Char} (hcs : ';' ∉ cs) (hlast : cs.getLast? ≠ some ' ') (n : Nat) :
    stripComment (cs ++ List.replicate n ' ') = cs := by
  have hall : ∀ c ∈ cs ++ List.replicate n ' ', (c != ';') = true := by
    intro c hc
    rcases List.mem_append.mp hc with hc | hc
    · exact bne_iff_ne.mpr fun h => hcs (h ▸ hc)
    · rw [List.eq_of_mem_replicate hc]; decide
  rw [stripComment, List.takeWhile_eq_self_iff.mpr hall]
  exact rdropWhile_append_spaces hlast n

/-- A comment changes nothing of the line (R68). -/
theorem stripComment_append_comment {cs : List Char} (hcs : ';' ∉ cs) (comment : List Char) :
    stripComment (cs ++ ';' :: comment) = stripComment cs := by
  have hall : ∀ c ∈ cs, (c != ';') = true := fun c hc => bne_iff_ne.mpr fun h => hcs (h ▸ hc)
  rw [stripComment, stripComment, List.takeWhile_append_of_pos hall, List.takeWhile_cons_of_neg (by decide),
    List.append_nil, List.takeWhile_eq_self_iff.mpr hall]

end Sys2Proof.Machine

end

-- The text of a command, read back (R68)

section

namespace Sys2Proof.Machine

theorem semicolon_notMem_spell (ds : List Nat) : ';' ∉ spell ds :=
  fun h => absurd (mem_hexDigits_of_mem_spell h) (by decide)

/-- A text that ends in a digit ends in no space. -/
theorem getLast?_append_spell {ds : List Nat} (hds : ds ≠ []) (cs : List Char) :
    (cs ++ spell ds).getLast? ≠ some ' ' := by
  have hne : spell ds ≠ [] := by simpa [spell] using hds
  rw [List.getLast?_append_of_ne_nil _ hne]
  exact fun h => absurd (mem_hexDigits_of_mem_spell (List.mem_of_getLast? h)) (by decide)

/-- No text of a command begins a comment. -/
theorem semicolon_notMem_textOf (i : Instr) : ';' ∉ textOf i := by
  cases i with
  | init => decide
  | word w => simp [textOf, hexWord_eq_spell, semicolon_notMem_spell]
  | final => decide
  | reflect v n => simp [textOf, hexWord_eq_spell, decimal_eq_spell, semicolon_notMem_spell]

/-- No text of a command ends in a space. -/
theorem getLast?_textOf (i : Instr) : (textOf i).getLast? ≠ some ' ' := by
  cases i with
  | init => decide
  | word w =>
    rw [textOf, hexWord_eq_spell]
    exact getLast?_append_spell (by simp) _
  | final => decide
  | reflect v n =>
    rw [textOf, decimal_eq_spell]
    exact getLast?_append_spell (by split <;> simp) _

/-- A line that is a command's text, but for its comment and the spaces at its end, spells that command (R68). -/
theorem parseLine_of_stripComment {line : List Char} {i : Instr} (hi : i.wellFormed = true)
    (h : stripComment line = textOf i) : parseLine line = some i := by
  unfold parseLine
  rw [h]
  cases i with
  | init => rfl
  | word w =>
    simp [textOf, parseWord_hexWord]
  | final => rfl
  | reflect v n =>
    have hn : n < 64 := of_decide_eq_true hi
    have hlength : (hexWord v).length = 8 := rfl
    simp [textOf, hlength, parseWord_hexWord, numberOf_decimal (hn.trans (by decide)), hn]

end Sys2Proof.Machine

end

-- The beats a command makes, and the bits of a beat (R65)

section

namespace Sys2Proof.Machine

/-- `FINAL` and `REFLECT` append one beat of their kind, `INIT` and `WORD` none (R50, R65). -/
theorem exec_rsp_append {i : Instr} {s t : State} (h : exec i s = .next t) :
    ∃ bs : List Beat, t.rsp = s.rsp ++ bs ∧ bs.length = (if makesBeat i then 1 else 0) ∧
      ∀ b ∈ bs, b.kind = (if i = .final then .result else .reflected) := by
  rcases exec_cases h with ⟨rfl, rfl⟩ | ⟨_, _, rfl, -, rfl⟩ | ⟨c, rfl, -, rfl⟩ | ⟨v, _, w, rfl, -, rfl⟩ |
    ⟨v, n, rfl, -, rfl⟩
  · exact ⟨[], by simp [makesBeat]⟩
  · exact ⟨[], by simp [makesBeat]⟩
  · exact ⟨[⟨.result, finalize c⟩], by simp [makesBeat]⟩
  · exact ⟨[⟨.reflected, reflect v w⟩], by simp [makesBeat]⟩
  · exact ⟨[⟨.reflected, nextDraw v n s⟩], by simp [makesBeat]⟩

/-- Bit `i` of a beat on the port: `data` below bit 32, then `kind` (R65). -/
theorem getLsbD_beatBits (b : Beat) (i : Nat) :
    (beatBits b).getLsbD i = if i < 32 then b.data.getLsbD i else (kindBit b.kind).getLsbD (i - 32) := by
  simp only [beatBits, BitVec.getLsbD_cast, BitVec.getLsbD_append]

theorem getLsbD_beatBits_kind (b : Beat) : (beatBits b).getLsbD 32 = decide (b.kind = .reflected) := by
  rw [getLsbD_beatBits, if_neg (by decide)]
  cases b.kind <;> rfl

theorem getLsbD_beatBits_data (b : Beat) {i : Nat} (hi : i < 32) : (beatBits b).getLsbD i = b.data.getLsbD i := by
  rw [getLsbD_beatBits, if_pos hi]

/-- A host reads back the beat that is on the port (R65). -/
theorem beatOfBits_beatBits (b : Beat) : beatOfBits (beatBits b) = b := by
  have hdata : (beatBits b).extractLsb' 0 32 = b.data := by
    apply BitVec.eq_of_getLsbD_eq
    intro i hi
    simp only [BitVec.getLsbD_extractLsb', Nat.zero_add, getLsbD_beatBits_data b hi, hi, decide_true, Bool.true_and]
  obtain ⟨kind, data⟩ := b
  simp only [beatOfBits, hdata, getLsbD_beatBits_kind]
  cases kind <;> rfl

end Sys2Proof.Machine

end

-- A run without a reset is that of its accepted commands (R67, R156)

section

namespace Sys2Proof.Machine

/-- The block as it would stand if the host had taken no beat yet. -/
def putBack (s : State) : State := { s with rsp := s.taken ++ s.rsp, taken := [] }

@[simp] theorem putBack_crc (s : State) : (putBack s).crc = s.crc := rfl
@[simp] theorem putBack_isOpen (s : State) : (putBack s).isOpen = s.isOpen := rfl
@[simp] theorem putBack_rsp (s : State) : (putBack s).rsp = s.taken ++ s.rsp := rfl

@[simp] theorem mapNext_eq_refused {f : State → State} {o : Host.Outcome State Fault Refusal} {r : Refusal} :
    mapNext f o = .refused r ↔ o = .refused r := by
  cases o <;> simp [mapNext]

theorem mapNext_eq_next {f : State → State} {o : Host.Outcome State Fault Refusal} {t : State} :
    mapNext f o = .next t ↔ ∃ u, o = .next u ∧ f u = t := by
  cases o <;> simp [mapNext]

theorem putBack_respond (k : BeatKind) (d : Word) (s : State) : putBack (respond k d s) = respond k d (putBack s) := by
  simp [putBack, respond]

/-- No command reads `RSP` or what the host has taken (R50). -/
theorem exec_putBack (i : Instr) (s : State) : exec i (putBack s) = mapNext putBack (exec i s) := by
  have hcrc : readCrc (putBack s) = readCrc s := rfl
  cases i with
  | init => rfl
  | word w => simp only [exec_word, execWord, hcrc]; cases readCrc s <;> rfl
  | final =>
    simp only [exec_final, execFinal, hcrc, ← putBack_respond]
    cases readCrc s <;> rfl
  | reflect v n =>
    have hdraw : nextDraw v n (putBack s) = nextDraw v n s := rfl
    simp only [exec_reflect, execReflect, hdraw, ← putBack_respond]
    cases legalWidth n <;> rfl

theorem execAll_putBack (is : List Instr) (s : State) : execAll is (putBack s) = mapNext putBack (execAll is s) := by
  induction is generalizing s with
  | nil => rfl
  | cons i is ih =>
    simp only [execAll, exec_putBack]
    cases exec i s with
    | next t => exact ih t
    | fault f => rfl
    | refused r => rfl

/-- A beat the host takes is put back where it was. -/
theorem putBack_takeBeat (s : State) : putBack (takeBeat s) = putBack s := by
  cases h : s.rsp with
  | nil => rw [takeBeat_of_nil h]
  | cons b bs => rw [takeBeat_of_cons h]; simp [putBack, h]

/-- But for the place of the beats, events without a reset do what their commands do (R67). -/
theorem mapNext_putBack_handleAll {es : List Event} (hes : withoutReset es = true) (s : State) :
    mapNext putBack (handleAll es s) = mapNext putBack (execAll (commandsOf es) s) := by
  induction es generalizing s with
  | nil => rfl
  | cons e es ih =>
    obtain ⟨he, hes⟩ : e ≠ .reset ∧ withoutReset es = true := by simpa [withoutReset] using hes
    cases e with
    | command c =>
      simp only [handleAll, handleEvent, commandsOf, execAll]
      cases exec (decode c) s with
      | next t => exact ih hes t
      | fault f => rfl
      | refused r => rfl
    | take =>
      calc mapNext putBack (handleAll es (takeBeat s))
        _ = execAll (commandsOf es) (putBack (takeBeat s)) := by rw [ih hes, execAll_putBack]
        _ = mapNext putBack (execAll (commandsOf es) s) := by rw [putBack_takeBeat, execAll_putBack]
    | reset => exact absurd rfl he

theorem exec_taken {i : Instr} {s t : State} (h : exec i s = .next t) : t.taken = s.taken := by
  rcases exec_cases h with ⟨_, rfl⟩ | ⟨_, _, _, _, rfl⟩ | ⟨_, _, _, rfl⟩ | ⟨_, _, _, _, _, rfl⟩ | ⟨_, _, _, _, rfl⟩ <;> simp

/-- Commands alone give the host no beat (R67). -/
theorem execAll_taken {is : List Instr} {s t : State} (h : execAll is s = .next t) : t.taken = s.taken := by
  induction is generalizing s with
  | nil => cases h; rfl
  | cons i is ih =>
    simp only [execAll] at h
    split at h
    · next u hu => exact (ih h).trans (exec_taken hu)
    · simp at h
    · simp at h

end Sys2Proof.Machine

end

-- One clock edge, and several (R67)

section

namespace Sys2Proof.Machine

theorem takesBeat_of_not_rst (ready : Bool) {p : PortInputs} (s : State) (hr : p.rst = false) :
    takesBeat p s = ((portOutputs ready p s).rspValid && p.rspReady) := by
  simp [takesBeat, portOutputs, hr]

theorem acceptsCommand_of_not_rst (ready : Bool) {p : PortInputs} (hr : p.rst = false) :
    acceptsCommand ready p = (p.cmdValid && ready) := by
  simp [acceptsCommand, readyWire, hr]

theorem portOutputs_cmdReady_of_not_rst (ready : Bool) {p : PortInputs} (s : State) (hr : p.rst = false) :
    (portOutputs ready p s).cmdReady = ready := by
  simp [portOutputs, readyWire, hr]

theorem edgeEvents_of_not_rst (ready : Bool) {p : PortInputs} (s : State) (hr : p.rst = false) :
    edgeEvents ready p s =
      (if takesBeat p s then [.take] else []) ++ (if acceptsCommand ready p then [.command p.cmd] else []) := by
  simp [edgeEvents, hr]

theorem take_mem_edgeEvents (ready : Bool) {p : PortInputs} (s : State) (hr : p.rst = false) :
    Event.take ∈ edgeEvents ready p s ↔ takesBeat p s = true := by
  simp [edgeEvents_of_not_rst ready s hr]

theorem command_mem_edgeEvents (ready : Bool) {p : PortInputs} (s : State) (hr : p.rst = false) (c : CommandWord) :
    Event.command c ∈ edgeEvents ready p s ↔ acceptsCommand ready p = true ∧ c = p.cmd := by
  simp [edgeEvents_of_not_rst ready s hr]

theorem reset_notMem_edgeEvents (ready : Bool) {p : PortInputs} (s : State) (hr : p.rst = false) :
    Event.reset ∉ edgeEvents ready p s := by
  simp [edgeEvents_of_not_rst ready s hr]

theorem length_edgeEvents_le (ready : Bool) {p : PortInputs} (s : State) (hr : p.rst = false) :
    (edgeEvents ready p s).length ≤ 2 := by
  rw [edgeEvents_of_not_rst ready s hr]
  cases takesBeat p s <;> cases acceptsCommand ready p <;> simp

/-- With `rst = 0` and no beat taken, an edge at most appends to `RSP` (R50, R67). -/
theorem clockEdge_rsp_append {ready : Bool} {p : PortInputs} {s t : State} (hr : p.rst = false)
    (htake : takesBeat p s = false) (h : clockEdge ready p s = .next t) : ∃ bs, t.rsp = s.rsp ++ bs := by
  cases ha : acceptsCommand ready p with
  | false =>
    obtain rfl : s = t := by simpa [clockEdge_of_not_accepts s hr ha, htake] using h
    exact ⟨[], (List.append_nil _).symm⟩
  | true =>
    have hsame : afterTake p s = s := by simp [afterTake, htake]
    rw [clockEdge_of_accepts s hr ha, hsame] at h
    obtain ⟨bs, hbs, -⟩ := exec_rsp_append h
    exact ⟨bs, hbs⟩

/-- Beats behind the one on offer are not seen at the port (R67). -/
theorem portOutputs_append_rsp (ready after : Bool) (p p' : PortInputs) {s t : State} {bs : List Beat}
    (hs : (portOutputs ready p s).rspValid = true) (ht : t.rsp = s.rsp ++ bs) :
    (portOutputs after p' t).rspValid = true ∧ (portOutputs after p' t).rsp = (portOutputs ready p s).rsp := by
  cases h : s.rsp with
  | nil => simp [portOutputs, h] at hs
  | cons b rest => simp [portOutputs, h, ht]

/-- A sequence of edges is its events in order (R67). -/
theorem clockEdges_eq_handleAll (es : List (Bool × PortInputs)) (s : State) :
    clockEdges es s = handleAll (edgeTrace es s) s := by
  induction es generalizing s with
  | nil => rfl
  | cons e es ih =>
    obtain ⟨ready, p⟩ := e
    have hedge : handleAll (edgeEvents ready p s) s = clockEdge ready p s := rfl
    simp only [clockEdges, edgeTrace, handleAll_append, hedge]
    cases clockEdge ready p s with
    | next t => exact ih t
    | fault f => rfl
    | refused r => rfl

/-- A command not accepted at an edge without reset stands at the next edge too (R67, R163). -/
theorem hostHolds_of_waiting {p p' : PortInputs} (hr : p.rst = false) (hv : p.cmdValid = true)
    (h : hostHolds false p p' = true) : p'.cmdValid = true ∧ p'.cmd = p.cmd := by
  simpa [hostHolds, hr, hv] using h

/-- A command that waits stands unchanged at the edge that ends the wait (R67). -/
theorem held_at_last {first last : PortInputs} {waits : List PortInputs} (hv : first.cmdValid = true)
    (hr : (first :: waits).all (fun p => !p.rst) = true)
    (hh : hostHoldsThroughout ((first :: waits).map (fun p => (false, p)) ++ [(true, last)]) = true) :
    last.cmdValid = true ∧ last.cmd = first.cmd := by
  induction waits generalizing first with
  | nil =>
    have hhold : hostHolds false first last = true := by simpa [hostHoldsThroughout] using hh
    exact hostHolds_of_waiting (by simpa using hr) hv hhold
  | cons next waits ih =>
    obtain ⟨hfirst, hrest⟩ : first.rst = false ∧ (next :: waits).all (fun p => !p.rst) = true := by simpa using hr
    rw [List.map_cons, List.map_cons, List.cons_append, List.cons_append, hostHoldsThroughout, Bool.and_eq_true] at hh
    obtain ⟨hhold, hthrough⟩ := hh
    obtain ⟨hvalid, hcmd⟩ := hostHolds_of_waiting hfirst hv hhold
    obtain ⟨hlast, hsame⟩ := ih hvalid hrest hthrough
    exact ⟨hlast, hsame.trans hcmd⟩

end Sys2Proof.Machine

end

-- The obligations on encodings, beats, events and edges (30_encoding.md)

section

namespace Sys2Proof.Machine

/-- Settles O4: `bits` below 64 fits its field, and a field of 6 bits is below 64. -/
theorem decodeOfEncodeIsIdentity : Obligations.DecodeOfEncodeIsIdentity :=
  ⟨fun _ => decode_encode, wellFormed_decode⟩

/-- Settles O2: a row accepts a word exactly where it is the row of the decoded mnemonic, and there is one such row. -/
theorem oneTableRowAcceptsEachWord : Obligations.OneTableRowAcceptsEachWord := by
  refine fun c => ⟨?_, fun r hr => (accepts_iff_mnemonic hr c).mp⟩
  have hrow : ∀ r, r ∈ opcodeTable ∧ r.accepts c = true ↔ r ∈ opcodeTable ∧ r.mnemonic = (decode c).mnemonic :=
    fun r => and_congr_right fun hr => accepts_iff_mnemonic hr c
  exact (existsUnique_congr hrow).mpr (existsUnique_row _)

/-- Settles O3, for the words of each `op`. -/
theorem decodingDropsOnlyUnusedFields : Obligations.DecodingDropsOnlyUnusedFields :=
  encode_decode

/-- Settles O6: a text has no `;` and ends in no space, so its comment and spaces drop away, and its digits read back. -/
theorem textFormReadsBack : Obligations.TextFormReadsBack := by
  intro i spaces comment hi
  have hspaces : ∀ n, stripComment (textOf i ++ List.replicate n ' ') = textOf i :=
    stripComment_append_spaces (semicolon_notMem_textOf i) (getLast?_textOf i)
  have hplain : stripComment (textOf i) = textOf i := by simpa using hspaces 0
  have hline : ';' ∉ textOf i ++ List.replicate spaces ' ' := by
    simp [semicolon_notMem_textOf]
  exact ⟨parseLine_of_stripComment hi hplain,
    parseLine_of_stripComment hi ((stripComment_append_comment hline comment).trans (hspaces spaces))⟩

/-- Settles O19: what each command appends to `RSP`, and the bits of a beat. -/
theorem responseBeats : Obligations.ResponseBeats :=
  ⟨fun _ _ _ => exec_rsp_append, fun b => ⟨by rw [getLsbD_beatBits_kind, decide_eq_true_iff],
    fun _ => getLsbD_beatBits_data b, beatOfBits_beatBits b⟩⟩

/-- Settles O24: with the taken beats put back, the run of the events and the run of the commands have one outcome. -/
theorem runDependsOnAcceptedCommandsOnly : Obligations.RunDependsOnAcceptedCommandsOnly := by
  intro es s hes
  have hrun := mapNext_putBack_handleAll hes s
  refine ⟨fun t ht => ?_, fun r => ?_⟩
  · obtain ⟨u, hu, hback⟩ := mapNext_eq_next.mp (hrun.symm.trans (mapNext_eq_next.mpr ⟨t, ht, rfl⟩))
    have hbeats : u.taken ++ u.rsp = t.taken ++ t.rsp := by simpa using congrArg State.rsp hback
    have hcrc : u.crc = t.crc := by simpa using congrArg State.crc hback
    have hopen : u.isOpen = t.isOpen := by simpa using congrArg State.isOpen hback
    exact ⟨u, hu, hcrc.symm, hopen.symm, by rw [← hbeats, execAll_taken hu]⟩
  · rw [← mapNext_eq_refused (f := putBack), hrun, mapNext_eq_refused]

/-- Settles O41: a reset edge is the reset, and any other edge's events are its two handshakes. -/
theorem edgesFollowTheHandshake : Obligations.EdgesFollowTheHandshake := by
  refine ⟨fun ready p s hr => ⟨?_, clockEdge_of_rst ready s hr⟩, fun ready after p p' s t hr h => ?_,
    fun ready p s hr => ?_, fun ready p s hr hcmd htake => ?_⟩
  · simp [portOutputs, readyWire, hr]
  · obtain rfl : resetBlock s = t := by simpa [clockEdge_of_rst ready s hr] using h
    rfl
  · have hready := portOutputs_cmdReady_of_not_rst ready s hr
    refine ⟨?_, fun c => ?_, hready, reset_notMem_edgeEvents ready s hr, length_edgeEvents_le ready s hr⟩
    · rw [take_mem_edgeEvents ready s hr, takesBeat_of_not_rst ready s hr, Bool.and_eq_true]
    · rw [command_mem_edgeEvents ready s hr, acceptsCommand_of_not_rst ready hr, hready, Bool.and_eq_true, and_assoc]
  · rw [← acceptsCommand_of_not_rst ready hr] at hcmd
    rw [← takesBeat_of_not_rst ready s hr] at htake
    rw [clockEdge_of_not_accepts s hr hcmd, htake]
    rfl

/-- Settles O42: an edge that takes no beat at most appends to `RSP`, and the port shows its head. -/
theorem untakenBeatIsHeld : Obligations.UntakenBeatIsHeld := by
  intro ready after p p' s t hr hnotReady hvalid hedge
  have htake : takesBeat p s = false := by simp [takesBeat, hnotReady]
  obtain ⟨bs, hbs⟩ := clockEdge_rsp_append hr htake hedge
  exact portOutputs_append_rsp ready after p p' hvalid hbs

/-- Settles O43, by induction on the edges. -/
theorem edgesAreTheirEvents : Obligations.EdgesAreTheirEvents :=
  clockEdges_eq_handleAll

/-- Settles O44: the command stands unchanged through every wait, so the edge that is ready accepts it. -/
theorem heldCommandIsTheOneAccepted : Obligations.HeldCommandIsTheOneAccepted := by
  intro first last waits hv hr hlast hholds
  obtain ⟨hvalid, hcmd⟩ := held_at_last hv hr hholds
  have haccepts : acceptsCommand true last = true := by rw [acceptsCommand_of_not_rst true hlast, hvalid]; rfl
  exact ⟨haccepts, hcmd, fun s => (command_mem_edgeEvents true s hlast _).mpr ⟨haccepts, hcmd.symm⟩⟩

/-- Settles O1: one lemma per `op`. -/
theorem decodeReadsTheFields : Obligations.DecodeReadsTheFields :=
  fun bits data => ⟨decode_commandWord_init bits data, decode_commandWord_word bits data,
    decode_commandWord_final bits data, decode_commandWord_reflect bits data⟩

/-- Settles O5: the decoder evaluated on the eight words. -/
theorem wordsWrittenOutInTheSpecDecode : Obligations.WordsWrittenOutInTheSpecDecode := by
  unfold Obligations.WordsWrittenOutInTheSpecDecode
  decide

/-- Settles O8: each of the host's other events, taken from the front of what the host does next. -/
theorem stepRunsTheHostsOtherEvents : Obligations.StepRunsTheHostsOtherEvents := by
  refine ⟨fun s h => ?_, fun s rest b bs h hrsp => ?_, fun s rest h hrsp => ?_, fun s rest h => ?_⟩
  · exact step_of_no_inputs h
  · exact (step_of_inputs h).trans (congrArg Host.Outcome.next (takeBeat_of_cons hrsp))
  · exact (step_of_inputs h).trans (congrArg Host.Outcome.next (takeBeat_of_nil hrsp))
  · exact step_of_inputs h

end Sys2Proof.Machine

end

-- The reflector, bit by bit, and its laws (R80 to R87)

section

namespace Sys2Proof.Machine

/-- R80 at every position: from 32 on both sides are 0. -/
theorem getLsbD_reflect (data : Word) (bits : Width) (i : Nat) :
    (reflect data bits).getLsbD i = (decide (i < bits.val) && data.getLsbD (bits.val - 1 - i)) := by
  obtain ⟨-, hbits⟩ := bits.property
  by_cases hi : i < 32
  · rw [reflect, getLsbD_reflectLoop data _ _ le_rfl hbits i hi, Nat.sub_self, decide_eq_true (Nat.zero_le i), Bool.true_and]
  · have hhigh : ¬ i < bits.val := by omega
    rw [BitVec.getLsbD_of_ge _ _ (by omega), decide_eq_false hhigh, Bool.false_and]

/-- The reflection has no bit at `bits` or above, so it is below `2^bits` (R82). -/
theorem reflect_toNat_lt (data : Word) (bits : Width) : (reflect data bits).toNat < 2 ^ bits.val := by
  refine Nat.lt_pow_two_of_testBit _ fun i hi => ?_
  rw [BitVec.testBit_toNat, getLsbD_reflect, decide_eq_false (by omega), Bool.false_and]

/-- `data mod 2^n` keeps the bits below `n` and clears the others. -/
theorem getLsbD_ofNat_mod_two_pow (data : Word) (n i : Nat) :
    (BitVec.ofNat 32 (data.toNat % 2 ^ n)).getLsbD i = (decide (i < n) && data.getLsbD i) := by
  rw [BitVec.getLsbD_ofNat, Nat.testBit_mod_two_pow, BitVec.testBit_toNat]
  by_cases hi : i < 32
  · simp [hi]
  · simp [BitVec.getLsbD_of_ge data i (by omega)]

/-- `2^k` has bit `k` alone. -/
theorem getLsbD_ofNat_two_pow (k i : Nat) :
    (BitVec.ofNat 32 (2 ^ k)).getLsbD i = (decide (i < 32) && decide (k = i)) := by
  rw [BitVec.getLsbD_ofNat, Nat.testBit_two_pow]

/-- Values that agree below `bits` have one reflection (R81). -/
theorem reflect_congr {x y : Word} {bits : Width} (h : ∀ i < bits.val, x.getLsbD i = y.getLsbD i) :
    reflect x bits = reflect y bits := by
  refine BitVec.eq_of_getLsbD_eq fun i _ => ?_
  rw [getLsbD_reflect, getLsbD_reflect, h _ (by have := bits.property; omega)]

/-- Bit `i` stands at its mirror place (R87). -/
theorem getLsbD_reflect_mirror (x : Word) {bits : Width} {i : Nat} (hi : i < bits.val) :
    (reflect x bits).getLsbD (bits.val - 1 - i) = x.getLsbD i := by
  have hback : bits.val - 1 - (bits.val - 1 - i) = i := by omega
  have hlow : bits.val - 1 - i < bits.val := by omega
  rw [getLsbD_reflect, hback, decide_eq_true hlow, Bool.true_and]

/-- Twice mirrored, a low bit stands at its own place again (R87). -/
theorem reflect_reflect (x : Word) (bits : Width) :
    reflect (reflect x bits) bits = BitVec.ofNat 32 (x.toNat % 2 ^ bits.val) := by
  refine BitVec.eq_of_getLsbD_eq fun i _ => ?_
  rw [getLsbD_reflect, getLsbD_ofNat_mod_two_pow]
  by_cases hi : i < bits.val
  · rw [getLsbD_reflect_mirror x hi]
  · rw [decide_eq_false hi, Bool.false_and, Bool.false_and]

/-- On values below `2^bits` the reflection is an involution (R87). -/
theorem reflect_reflect_of_lt {x : Word} {bits : Width} (hx : x.toNat < 2 ^ bits.val) :
    reflect (reflect x bits) bits = x := by
  rw [reflect_reflect, Nat.mod_eq_of_lt hx, BitVec.ofNat_toNat, BitVec.setWidth_eq]

/-- Every 32-bit value is below `2^32`, so at width 32 the reflection is its own inverse (R87). -/
theorem reflect_full_involutive : Function.Involutive fun x : Word => reflect x Width.full :=
  fun x => reflect_reflect_of_lt x.isLt

theorem reflect_zero (bits : Width) : reflect 0 bits = 0 := by
  refine BitVec.eq_of_getLsbD_eq fun i _ => ?_
  simp [getLsbD_reflect]

/-- The one bit of `2^k` moves to its mirror place (R87). -/
theorem reflect_two_pow {bits : Width} {k : Nat} (hk : k < bits.val) :
    reflect (BitVec.ofNat 32 (2 ^ k)) bits = BitVec.ofNat 32 (2 ^ (bits.val - 1 - k)) := by
  refine BitVec.eq_of_getLsbD_eq fun i hi => ?_
  have hbits := bits.property
  rw [getLsbD_reflect, getLsbD_ofNat_two_pow, getLsbD_ofNat_two_pow, Bool.eq_iff_iff]
  simp only [Bool.and_eq_true, decide_eq_true_eq]
  omega

/-- `1` is `2^0` (R87). -/
theorem reflect_one (bits : Width) : reflect 1 bits = BitVec.ofNat 32 (2 ^ (bits.val - 1)) :=
  reflect_two_pow (k := 0) bits.property.1

/-- All-ones at width 32 reads the same from both ends (R87). -/
theorem reflect_full_allOnes : reflect (BitVec.allOnes 32) Width.full = BitVec.allOnes 32 := by
  refine BitVec.eq_of_getLsbD_eq fun i hi => ?_
  have hmirror : Width.full.val - 1 - i < 32 := by simp only [Width.full]; omega
  rw [getLsbD_reflect, BitVec.getLsbD_allOnes, BitVec.getLsbD_allOnes, decide_eq_true hmirror, Bool.and_true]
  rfl

/-- A reflection of width 1 keeps bit 0 and clears the others (R87). -/
theorem reflect_width_one (x : Word) : reflect x ⟨1, by decide⟩ = if x.getLsbD 0 then 1 else 0 := by
  refine BitVec.eq_of_getLsbD_eq fun i _ => ?_
  rw [getLsbD_reflect]
  by_cases hi : i = 0
  · subst hi
    cases x.getLsbD 0 <;> rfl
  · cases x.getLsbD 0 <;> simp [hi, BitVec.getLsbD_one]

theorem reflect_xor (a b : Word) (bits : Width) :
    reflect (a ^^^ b) bits = reflect a bits ^^^ reflect b bits := by
  refine BitVec.eq_of_getLsbD_eq fun i _ => ?_
  rw [BitVec.getLsbD_xor, getLsbD_reflect, getLsbD_reflect, getLsbD_reflect, BitVec.getLsbD_xor, Bool.and_xor_distrib_left]

/-- A legal width: one beat with the reflection (R88). -/
theorem execReflect_of_legal {bits : Nat} (h : 1 ≤ bits ∧ bits ≤ 32) (value : Word) (s : State) :
    execReflect value bits s = .next (respond .reflected (reflect value ⟨bits, h⟩) s) := by
  rw [execReflect, legalWidth_eq_some h]

/-- A reserved width: one beat with the next free value, which is used up (R89). -/
theorem execReflect_of_reserved {bits : Nat} (h : ¬ (1 ≤ bits ∧ bits ≤ 32)) (value : Word) (s : State) :
    execReflect value bits s = .next (advanceDraw (respond .reflected (nextDraw value bits s) s)) := by
  rw [execReflect, legalWidth_eq_none h]

end Sys2Proof.Machine

end

-- The reflector's obligations (40_bit_reflector.md)

section

namespace Sys2Proof.Machine

/-- Settles O17: a legal width gives the reflection, a reserved one the next free value. -/
theorem reflectAnswersInEveryState : Obligations.ReflectAnswersInEveryState := by
  refine ⟨fun s value bits low high => ⟨?_, fun i _ => getLsbD_reflect value _ i⟩, fun s value bits hbits => ?_⟩
  · exact execReflect_of_legal ⟨low, high⟩ value s
  · exact ⟨nextDraw value bits s, execReflect_of_reserved (by omega) value s⟩

/-- Settles O27: what the reference loop leaves at each position, and the bound that follows. -/
theorem reflectMirrorsTheLowBits : Obligations.ReflectMirrorsTheLowBits :=
  fun data bits => ⟨fun i _ => getLsbD_reflect data bits i, reflect_toNat_lt data bits⟩

/-- Settles O28: `data` and `data mod 2^bits` agree below `bits`. -/
theorem reflectIgnoresHighBits : Obligations.ReflectIgnoresHighBits := by
  refine fun data bits => reflect_congr fun i hi => ?_
  rw [getLsbD_ofNat_mod_two_pow, decide_eq_true hi, Bool.true_and]

/-- Settles O29, one lemma per row of R87's table. -/
theorem lawsOfReflect : Obligations.LawsOfReflect :=
  ⟨fun _ _ => reflect_reflect_of_lt, reflect_zero, reflect_one, reflect_full_allOnes, reflect_reflect,
    fun _ _ => reflect_two_pow, reflect_width_one, reflect_xor, fun x _ _ => getLsbD_reflect_mirror x,
    reflect_full_involutive, reflect_full_involutive.bijective⟩

end Sys2Proof.Machine

end

-- Bit-steps and folded Words (R101 to R103)

section

namespace Sys2Proof.Machine

@[simp] theorem reflect_full_reflect_full (x : Word) : reflect (reflect x Width.full) Width.full = x :=
  reflect_full_involutive x

/-- The inner loop of R102 as the bits it takes, from `block[31]` on. -/
theorem foldLoop_eq_foldl (p b c : Word) (n : Nat) :
    foldLoop p b c n = (List.range n).foldl (fun r i => bitstep p r (b.getLsbD (31 - i))) c := by
  induction n with
  | zero => rfl
  | succ n ih => rw [foldLoop_succ, ih, List.range_succ, List.foldl_append, List.foldl_cons, List.foldl_nil]

/-- Top bit and input bit alike: nothing is fed back, whatever the constant is (R101). -/
theorem bitstep_of_top_eq {c : Word} {b : Bool} (h : c.getLsbD 31 = b) (p : Word) : bitstep p c b = c <<< 1 := by
  subst h
  simp [bitstep]

/-- With `POLYNOMIAL` 0 nothing is ever fed back (R109). -/
theorem bitstep_zero_polynomial (c : Word) (b : Bool) : bitstep 0 c b = c <<< 1 := by
  simp [bitstep]

/-- For one constant a bit-step is linear over XOR in register and input bit together (R118). -/
theorem bitstep_xor (p a b : Word) (x y : Bool) :
    bitstep p (a ^^^ b) (x ^^ y) = bitstep p a x ^^^ bitstep p b y := by
  refine BitVec.eq_of_getLsbD_eq fun j hj => ?_
  simp only [BitVec.getLsbD_xor, getLsbD_bitstep _ _ _ _ hj, Bool.and_xor_distrib_left, Bool.and_xor_distrib_right,
    Bool.xor_assoc, Bool.xor_left_comm]

/-- So is every number of passes over a block (R118). -/
theorem foldLoop_xor (p v w a b : Word) (n : Nat) :
    foldLoop p (v ^^^ w) (a ^^^ b) n = foldLoop p v a n ^^^ foldLoop p w b n := by
  induction n with
  | zero => rfl
  | succ n ih => rw [foldLoop_succ, foldLoop_succ, foldLoop_succ, ih, BitVec.getLsbD_xor, bitstep_xor]

/-- Folding a Word is linear over XOR in register and Word together (R118). -/
theorem foldWord_xor (p a b v w : Word) : foldWord p (a ^^^ b) (v ^^^ w) = foldWord p a v ^^^ foldWord p b w := by
  rw [foldWord, reflect_xor, foldLoop_xor, foldWord, foldWord]

/-- A register that meets its own bits is shifted out, one bit a pass (R101, V-A1). -/
theorem foldLoop_self (p c : Word) {n : Nat} (hn : n ≤ 32) : foldLoop p c c n = c <<< n := by
  induction n with
  | zero => exact (BitVec.shiftLeft_zero c).symm
  | succ n ih =>
    have htop : (c <<< n).getLsbD 31 = c.getLsbD (31 - n) := by
      have hlow : ¬ 31 < n := by omega
      rw [BitVec.getLsbD_shiftLeft, decide_eq_false hlow]
      rfl
    rw [foldLoop_succ, ih (by omega), bitstep_of_top_eq htop, BitVec.shiftLeft_add]

theorem foldWord_reflect_self (p c : Word) : foldWord p c (reflect c Width.full) = 0 := by
  rw [foldWord, reflect_full_reflect_full]
  exact (foldLoop_self p c le_rfl).trans (BitVec.shiftLeft_eq_zero le_rfl)

/-- The Word may be XORed in before any bit-step, and zeros shifted in after it: the two differ by a register that is folded with
its own reflection (R116). -/
theorem foldWord_eq_foldWord_xor_zero (p c w : Word) : foldWord p c w = foldWord p (c ^^^ reflect w Width.full) 0 := by
  have hown : foldWord p (reflect w Width.full) w = 0 := by
    simpa only [reflect_full_reflect_full] using foldWord_reflect_self p (reflect w Width.full)
  calc foldWord p c w
    _ = foldWord p c w ^^^ foldWord p (reflect w Width.full) w := by rw [hown]; exact BitVec.xor_zero.symm
    _ = foldWord p (c ^^^ reflect w Width.full) (w ^^^ w) := (foldWord_xor ..).symm
    _ = foldWord p (c ^^^ reflect w Width.full) 0 := by rw [BitVec.xor_self]; rfl

end Sys2Proof.Machine

end

-- `finalize` and `calculate_crc` (R104 to R107)

section

namespace Sys2Proof.Machine

theorem reflect_xorOut : reflect Config.xorOut Width.full = Config.xorOut := reflect_full_allOnes

/-- The inversion may come before the reflection (R104). -/
theorem finalize_eq_reflect_xor (c : Word) : finalize c = reflect (c ^^^ Config.xorOut) Width.full := by
  rw [finalize, reflect_xor, reflect_xorOut]

/-- Each bit of the Result is the complement of the register's bit at the mirror place (R104). -/
theorem getLsbD_finalize (c : Word) {i : Nat} (hi : i < 32) : (finalize c).getLsbD i = !c.getLsbD (31 - i) := by
  have hones : Config.xorOut.getLsbD i = true := (BitVec.getLsbD_allOnes).trans (decide_eq_true hi)
  rw [finalize, BitVec.getLsbD_xor, getLsbD_reflect, hones, Bool.xor_true]
  simp [Width.full, hi]

/-- Taking off the inversion and reflecting again leads back to the register, and forth to the Result (R104). -/
theorem reflect_finalize_xor (c : Word) : reflect (finalize c ^^^ Config.xorOut) Width.full = c := by
  rw [finalize, BitVec.xor_assoc, BitVec.xor_self, BitVec.xor_zero, reflect_full_reflect_full]

theorem finalize_reflect_xor (r : Word) : finalize (reflect (r ^^^ Config.xorOut) Width.full) = r := by
  rw [finalize, reflect_full_reflect_full, BitVec.xor_assoc, BitVec.xor_self, BitVec.xor_zero]

theorem finalize_bijective : Function.Bijective finalize :=
  Function.bijective_iff_has_inverse.mpr
    ⟨fun r => reflect (r ^^^ Config.xorOut) Width.full, reflect_finalize_xor, finalize_reflect_xor⟩

/-- XORing into the register XORs the reflection into the Result. -/
theorem finalize_xor (c d : Word) : finalize (c ^^^ d) = finalize c ^^^ reflect d Width.full := by
  rw [finalize, finalize, reflect_xor, BitVec.xor_assoc, BitVec.xor_assoc, BitVec.xor_comm Config.xorOut]

theorem finalize_initValue : finalize Config.initValue = 0 :=
  (congrArg (· ^^^ Config.xorOut) reflect_xorOut).trans BitVec.xor_self

/-- After `n` Words that are there, the outer loop has folded them in order (R105). -/
theorem engineLoop_of_le (p : Word) {ws : List Word} {n : Nat} (hn : n ≤ ws.length) :
    engineLoop p ws n = some (register p (ws.take n)) := by
  induction n with
  | zero => rfl
  | succ n ih =>
    have hword : ws[n]? = some ws[n] := List.getElem?_eq_getElem hn
    rw [engineLoop_succ p ws n _ _ (ih (by omega)) hword, List.take_add_one, hword, register, register, List.foldl_append]
    rfl

/-- Past the end it has no value (R43). -/
theorem engineLoop_of_length_lt (p : Word) {ws : List Word} {n : Nat} (hn : ws.length < n) : engineLoop p ws n = none := by
  cases n with
  | zero => omega
  | succ n =>
    have hword : ws[n]? = none := List.getElem?_eq_none (by omega)
    rw [engineLoop, hword]
    cases engineLoop p ws n <;> rfl

theorem calculateCrc_of_le (p : Word) {ws : List Word} {n : Nat} (hn : n ≤ ws.length) :
    calculateCrc p ws n = some (finalize (register p (ws.take n))) := by
  rw [calculateCrc, engineLoop_of_le p hn, Option.map_some]

theorem calculateCrc_of_length_lt (p : Word) {ws : List Word} {n : Nat} (hn : ws.length < n) : calculateCrc p ws n = none := by
  rw [calculateCrc, engineLoop_of_length_lt p hn, Option.map_none]

theorem calculateCrc_length (p : Word) (ws : List Word) : calculateCrc p ws ws.length = some (finalize (register p ws)) := by
  rw [calculateCrc_of_le p le_rfl, List.take_length]

theorem register_append (p : Word) (vs ws : List Word) : register p (vs ++ ws) = ws.foldl (foldWord p) (register p vs) :=
  List.foldl_append

/-- Folding sequences of one length is linear over XOR (R118). -/
theorem foldl_foldWord_zipWith_xor (p : Word) {vs ws : List Word} (h : vs.length = ws.length) (a b : Word) :
    (List.zipWith (· ^^^ ·) vs ws).foldl (foldWord p) (a ^^^ b) = vs.foldl (foldWord p) a ^^^ ws.foldl (foldWord p) b := by
  induction vs generalizing ws a b with
  | nil => cases ws with
    | nil => rfl
    | cons w ws => simp at h
  | cons v vs ih => cases ws with
    | nil => simp at h
    | cons w ws =>
      simp only [List.zipWith_cons_cons, List.foldl_cons, foldWord_xor]
      exact ih (Nat.succ.inj h) _ _

/-- Three copies of the initial register XOR to one, so the register of three sequences is linear in them (R118). -/
theorem register_zipWith_xor (p : Word) {us vs ws : List Word} (huv : us.length = vs.length) (hvw : vs.length = ws.length) :
    register p (List.zipWith (· ^^^ ·) (List.zipWith (· ^^^ ·) us vs) ws) =
      register p us ^^^ register p vs ^^^ register p ws := by
  have hinit : Config.initValue = Config.initValue ^^^ Config.initValue ^^^ Config.initValue := by decide
  have hlength : (List.zipWith (· ^^^ ·) us vs).length = ws.length := by simp [huv, hvw]
  rw [register, hinit, foldl_foldWord_zipWith_xor p hlength, foldl_foldWord_zipWith_xor p huv]
  rfl

/-- The constants of three Results XOR to one. -/
theorem finalize_xor_xor (a b c : Word) : finalize (a ^^^ b ^^^ c) = finalize a ^^^ finalize b ^^^ finalize c := by
  have hones : Config.xorOut = Config.xorOut ^^^ Config.xorOut ^^^ Config.xorOut := by decide
  simp only [finalize, reflect_xor]
  conv_lhs => rw [hones]
  ac_rfl

end Sys2Proof.Machine

end

-- `POLYNOMIAL` 0 and 1 (R109)

section

namespace Sys2Proof.Machine

theorem foldLoop_zero_polynomial (b c : Word) (n : Nat) : foldLoop 0 b c n = c <<< n := by
  induction n with
  | zero => exact (BitVec.shiftLeft_zero c).symm
  | succ n ih => rw [foldLoop_succ, ih, bitstep_zero_polynomial, BitVec.shiftLeft_add]

theorem foldWord_zero_polynomial (c w : Word) : foldWord 0 c w = 0 :=
  (foldLoop_zero_polynomial ..).trans (BitVec.shiftLeft_eq_zero le_rfl)

theorem register_zero_polynomial (w : Word) (ws : List Word) : register 0 (w :: ws) = 0 := by
  rw [register, List.foldl_cons, foldWord_zero_polynomial, List.foldl_fixed' (foldWord_zero_polynomial 0)]

/-- With `POLYNOMIAL` 1 and zeros shifted in, each pass turns the register round by one place. -/
theorem getLsbD_foldLoop_one (c : Word) {n j : Nat} (hn : n ≤ 32) (hj : j < 32) :
    (foldLoop 1 0 c n).getLsbD j = c.getLsbD ((j + 32 - n) % 32) := by
  induction n generalizing j with
  | zero => rw [foldLoop_zero, Nat.sub_zero, Nat.add_mod_right, Nat.mod_eq_of_lt hj]
  | succ n ih =>
    have hzero : (0 : Word).getLsbD (31 - n) = false := BitVec.getLsbD_zero
    rw [foldLoop_succ, getLsbD_bitstep _ _ _ _ hj, hzero, Bool.xor_false]
    cases j with
    | zero =>
      have hplace : (31 + 32 - n) % 32 = (0 + 32 - (n + 1)) % 32 := by omega
      rw [ih (by omega) (by decide : 31 < 32), hplace]
      simp
    | succ j =>
      have hplace : (j + 32 - n) % 32 = (j + 1 + 32 - (n + 1)) % 32 := by omega
      rw [Nat.add_sub_cancel, ih (by omega) (by omega), hplace]
      simp [BitVec.getLsbD_one]

/-- After 32 passes every bit is back in its place, so the Word's reflection alone is XORed in (R109). -/
theorem foldWord_one_polynomial (c w : Word) : foldWord 1 c w = c ^^^ reflect w Width.full := by
  have hround (r : Word) : foldLoop 1 0 r 32 = r := by
    refine BitVec.eq_of_getLsbD_eq fun j hj => ?_
    rw [getLsbD_foldLoop_one r le_rfl hj, Nat.add_sub_cancel, Nat.mod_eq_of_lt hj]
  rw [foldWord_eq_foldWord_xor_zero, foldWord, reflect_zero]
  exact hround _

theorem finalize_register_one (ws : List Word) : finalize (register 1 ws) = ws.foldl (· ^^^ ·) 0 := by
  have hstep (c w : Word) : finalize c ^^^ w = finalize (foldWord 1 c w) := by
    rw [foldWord_one_polynomial, finalize_xor, reflect_full_reflect_full]
  rw [register, ← List.foldl_hom finalize hstep, finalize_initValue]

end Sys2Proof.Machine

end

-- The right-shifting form (R116)

section

namespace Sys2Proof.Machine

theorem reflect_shiftLeft_one (c : Word) : reflect (c <<< 1) Width.full = reflect c Width.full >>> 1 := by
  refine BitVec.eq_of_getLsbD_eq fun i hi => ?_
  rw [BitVec.getLsbD_ushiftRight, getLsbD_reflect, getLsbD_reflect, BitVec.getLsbD_shiftLeft]
  simp only [Width.full]
  by_cases htop : i = 31
  · subst htop
    simp
  · have hplace : 32 - 1 - i - 1 = 32 - 1 - (1 + i) := by omega
    have hlow : 1 + i < 32 := by omega
    have hshifted : ¬ 32 - 1 - i < 1 := by omega
    have hmirror : 32 - 1 - i < 32 := by omega
    simp [hplace, hlow, hshifted, hmirror, hi]

/-- Mirrored, a bit-step shifts to the right and feeds back the mirrored constant (R116). -/
theorem reflect_bitstep (p c : Word) (b : Bool) :
    reflect (bitstep p c b) Width.full = rightStep (reflect p Width.full) (reflect c Width.full) b := by
  have htop : (reflect c Width.full).getLsbD 0 = c.getLsbD 31 := by
    rw [getLsbD_reflect]; rfl
  simp only [bitstep, rightStep, htop]
  split
  · rw [reflect_xor, reflect_shiftLeft_one]
  · rw [reflect_shiftLeft_one]

theorem reflect_foldLoop (p c w : Word) {n : Nat} (hn : n ≤ 32) :
    reflect (foldLoop p (reflect w Width.full) c n) Width.full =
      rightLoop (reflect p Width.full) w (reflect c Width.full) n := by
  induction n with
  | zero => rfl
  | succ n ih =>
    rw [foldLoop_succ, reflect_bitstep, ih (by omega), getLsbD_reflect_full w (by omega)]
    rfl

theorem reflect_foldWord (p c w : Word) :
    reflect (foldWord p c w) Width.full = rightFold (reflect p Width.full) (reflect c Width.full) w :=
  reflect_foldLoop p c w le_rfl

/-- The right-shifting form inherits the exchange from the form it mirrors. -/
theorem rightFold_eq_rightFoldXored (q r w : Word) : rightFold q r w = rightFoldXored q r w := by
  obtain ⟨p, rfl⟩ := reflect_full_involutive.surjective q
  obtain ⟨c, rfl⟩ := reflect_full_involutive.surjective r
  calc rightFold (reflect p Width.full) (reflect c Width.full) w
    _ = reflect (foldWord p (c ^^^ reflect w Width.full) 0) Width.full := by
      rw [← reflect_foldWord, foldWord_eq_foldWord_xor_zero]
    _ = rightFold (reflect p Width.full) (reflect c Width.full ^^^ w) 0 := by
      rw [reflect_foldWord, reflect_xor, reflect_full_reflect_full]
    _ = rightFoldXored (reflect p Width.full) (reflect c Width.full) w := rfl

/-- A call's registers in that form are the reflections, so the reflection at the end is already made. -/
theorem finalize_register_eq_rightCrc (p : Word) (ws : List Word) :
    finalize (register p ws) = rightCrc (reflect p Width.full) ws := by
  have hinit : reflect Config.initValue Width.full = Config.initValue := reflect_full_allOnes
  rw [finalize, register, ← List.foldl_hom (reflect · Width.full) fun c w => (reflect_foldWord p c w).symm, hinit]
  rfl

end Sys2Proof.Machine

end

-- Runs of commands, and whole calls (R110 to R113)

section

namespace Sys2Proof.Machine

theorem execWord_of_readCrc_eq_none {s : State} (h : readCrc s = none) (w : Word) : execWord w s = .refused .wordOutsideCall := by
  rw [execWord, h]

theorem execFinal_of_readCrc_eq_none {s : State} (h : readCrc s = none) : execFinal s = .refused .finalOutsideCall := by
  rw [execFinal, h]

theorem wordsOf_append (is js : List Instr) : wordsOf (is ++ js) = wordsOf is ++ wordsOf js := by
  induction is with
  | nil => rfl
  | cons i is ih => rw [List.cons_append, wordsOf_cons, ih, ← List.append_assoc, ← wordsOf_cons]

/-- A run that completes did so by its first command and the rest (R50). -/
theorem execAll_cons_eq_next {i : Instr} {is : List Instr} {s t : State} :
    execAll (i :: is) s = .next t ↔ ∃ u, exec i s = .next u ∧ execAll is u = .next t := by
  rw [execAll]
  cases exec i s <;> simp

/-- A run that completes did so by each of two parts (R50). -/
theorem execAll_append_eq_next {is js : List Instr} {s t : State} :
    execAll (is ++ js) s = .next t ↔ ∃ u, execAll is s = .next u ∧ execAll js u = .next t := by
  induction is generalizing s with
  | nil => simp [execAll]
  | cons i is ih =>
    simp only [List.cons_append, execAll_cons_eq_next, ih]
    exact ⟨fun ⟨u, hu, v, hv, ht⟩ => ⟨v, ⟨u, hu, hv⟩, ht⟩, fun ⟨v, ⟨u, hu, hv⟩, ht⟩ => ⟨u, hu, v, hv, ht⟩⟩

theorem execAll_singleton (i : Instr) (s : State) : execAll [i] s = exec i s := by
  rw [execAll]
  cases exec i s <;> rfl

/-- No run of commands changes the constant (R25). -/
theorem execAll_config {is : List Instr} {s t : State} (h : execAll is s = .next t) : t.config = s.config := by
  induction is generalizing s with
  | nil => cases h; rfl
  | cons i is ih =>
    obtain ⟨u, hu, ht⟩ := execAll_cons_eq_next.mp h
    exact (ih ht).trans (exec_config hu)

/-- Inside a call a command makes a beat or carries a Word: `REFLECT` the one, `WORD` the other (R88, R111). -/
theorem beats_add_words_of_insideCall {i : Instr} (hi : insideCall i = true) :
    (if makesBeat i then 1 else 0) + (wordsOf [i]).length = 1 := by
  cases i with
  | init => simp [insideCall] at hi
  | final => simp [insideCall] at hi
  | word w => rfl
  | reflect v n => rfl

theorem ne_final_of_insideCall {i : Instr} (hi : insideCall i = true) : i ≠ .final := by
  rintro rfl
  simp [insideCall] at hi

/-- The commands inside a call append beats of kind 1 only, one for each that is no `WORD` (R88). -/
theorem execAll_insideCall_rsp {cs : List Instr} {s t : State} (hcs : cs.all insideCall = true)
    (h : execAll cs s = .next t) :
    ∃ bs : List Beat, t.rsp = s.rsp ++ bs ∧ (∀ b ∈ bs, b.kind = .reflected) ∧
      bs.length + (wordsOf cs).length = cs.length := by
  induction cs generalizing s with
  | nil => cases h; exact ⟨[], by simp [wordsOf]⟩
  | cons i is ih =>
    rw [List.all_cons, Bool.and_eq_true] at hcs
    obtain ⟨hi, his⟩ := hcs
    obtain ⟨u, hu, ht⟩ := execAll_cons_eq_next.mp h
    obtain ⟨first, hfirst, hfirstLength, hfirstKind⟩ := exec_rsp_append hu
    obtain ⟨rest, hrest, hrestKind, hrestLength⟩ := ih his ht
    rw [if_neg (ne_final_of_insideCall hi)] at hfirstKind
    refine ⟨first ++ rest, by rw [hrest, hfirst, List.append_assoc], ?_, ?_⟩
    · exact List.forall_mem_append.mpr ⟨hfirstKind, hrestKind⟩
    · have hone := beats_add_words_of_insideCall hi
      rw [wordsOf_cons, List.length_append, List.length_append, List.length_cons]
      omega

/-- A whole call completes from every state; its last beat is `finalize` of the register of its Words (R113). -/
theorem execAll_call (s : State) {cs : List Instr} (hcs : cs.all insideCall = true) :
    ∃ (t : State) (bs : List Beat), execAll (.init :: (cs ++ [.final])) s = .next t ∧
      t.rsp = s.rsp ++ bs ++ [⟨.result, finalize (register s.config.polynomial (wordsOf cs))⟩] ∧
      (∀ b ∈ bs, b.kind = .reflected) ∧ bs.length + (wordsOf cs).length = cs.length ∧
      t.isOpen = false ∧ t.crc = none := by
  have hread : readCrc (setOpen (writeCrc Config.initValue s)) = some Config.initValue := rfl
  obtain ⟨u, hu, hcrc⟩ := execAll_insideCall hcs hread
  obtain ⟨bs, hrsp, hkind, hlength⟩ := execAll_insideCall_rsp hcs hu
  have hfinal := (execAll_singleton .final u).trans (execFinal_of_readCrc hcrc)
  have hrun := execAll_cons_eq_next.mpr ⟨_, exec_init s, execAll_append_eq_next.mpr ⟨u, hu, hfinal⟩⟩
  refine ⟨_, bs, hrun, ?_, hkind, hlength, rfl, rfl⟩
  exact congrArg (· ++ _) hrsp

/-- The last beat of a call names nothing but `POLYNOMIAL` and the Words (R108, R151). -/
theorem getLast?_rsp_of_call {s t : State} {cs : List Instr} (hcs : cs.all insideCall = true)
    (h : execAll (.init :: (cs ++ [.final])) s = .next t) :
    t.rsp.getLast? = some ⟨.result, finalize (register s.config.polynomial (wordsOf cs))⟩ := by
  obtain ⟨u, bs, hu, hrsp, -⟩ := execAll_call s hcs
  cases h.symm.trans hu
  rw [hrsp, List.getLast?_concat]

/-- Where the register comes from that stands in `CRC` after a command: `INIT` sets it, and the commands inside a call fold
on what stood there (R110, R111). -/
theorem readCrc_cases_of_exec {i : Instr} {s t : State} {c : Word} (h : exec i s = .next t) (hc : readCrc t = some c) :
    (i = .init ∧ c = Config.initValue) ∨
    (insideCall i = true ∧ ∃ c₀, readCrc s = some c₀ ∧ c = (wordsOf [i]).foldl (foldWord s.config.polynomial) c₀) := by
  obtain ⟨hopen, hvalue⟩ := readCrc_eq_some.mp hc
  rcases exec_cases h with ⟨rfl, rfl⟩ | ⟨w, c₀, rfl, hc₀, rfl⟩ | ⟨c₀, rfl, hc₀, rfl⟩ | ⟨v, n, w, rfl, hn, rfl⟩ |
    ⟨v, n, rfl, hn, rfl⟩
  · exact .inl ⟨rfl, (Option.some.inj hvalue).symm⟩
  · exact .inr ⟨rfl, c₀, hc₀, (Option.some.inj hvalue).symm⟩
  · simp at hopen
  · exact .inr ⟨rfl, c, hc, rfl⟩
  · exact .inr ⟨rfl, c, hc, rfl⟩

/-- In a run from a state with no call open, a register in `CRC` is that of the Words since the run's last `INIT` (R113). -/
theorem execAll_open_call {is : List Instr} {s t : State} {c : Word} (hs : s.isOpen = false)
    (h : execAll is s = .next t) (hc : readCrc t = some c) :
    ∃ before inside : List Instr, is = before ++ .init :: inside ∧ inside.all insideCall = true ∧
      c = register s.config.polynomial (wordsOf inside) := by
  induction is using List.reverseRecOn generalizing t c with
  | nil =>
    cases h
    obtain ⟨hopen, -⟩ := readCrc_eq_some.mp hc
    simp [hs] at hopen
  | append_singleton is i ih =>
    obtain ⟨u, hu, ht⟩ := execAll_append_eq_next.mp h
    rw [execAll_singleton] at ht
    rcases readCrc_cases_of_exec ht hc with ⟨rfl, rfl⟩ | ⟨hi, c₀, hc₀, rfl⟩
    · exact ⟨is, [], rfl, rfl, rfl⟩
    · obtain ⟨before, inside, rfl, hinside, rfl⟩ := ih hu hc₀
      refine ⟨before, inside ++ [i], by simp, by simp [hinside, hi], ?_⟩
      rw [wordsOf_append, register_append, execAll_config hu]

end Sys2Proof.Machine

end

-- The CRC Engine's obligations (41_crc_engine.md)

section

namespace Sys2Proof.Machine

/-- Settles O14: `INIT` reads nothing of the state it replaces, so a second one finds what it writes. -/
theorem initOpensACall : Obligations.InitOpensACall := by
  refine fun s => ⟨rfl, fun t ht => ?_⟩
  cases ht
  rfl

/-- Settles O15: inside a call `CRC` is readable, outside it is not. -/
theorem wordFoldsInsideACallOnly : Obligations.WordFoldsInsideACallOnly :=
  ⟨fun _ w _ hopen hcrc => ⟨execWord_of_readCrc (readCrc_eq_some.mpr ⟨hopen, hcrc⟩) w, foldLoop_eq_foldl ..⟩,
    fun _ w hclosed => execWord_of_readCrc_eq_none (readCrc_eq_none.mpr (.inl hclosed)) w⟩

/-- Settles O16, as O15 for `FINAL`. -/
theorem finalReturnsInsideACallOnly : Obligations.FinalReturnsInsideACallOnly :=
  ⟨fun _ crc hopen hcrc => ⟨finalize crc, execFinal_of_readCrc (readCrc_eq_some.mpr ⟨hopen, hcrc⟩), rfl,
      fun _ => getLsbD_finalize crc⟩,
    fun _ hclosed => execFinal_of_readCrc_eq_none (readCrc_eq_none.mpr (.inl hclosed))⟩

/-- Settles O21: the register a whole call finalizes is the one `calculate_crc` does. -/
theorem callReturnsCalculateCrc : Obligations.CallReturnsCalculateCrc := by
  intro s cs hcs
  obtain ⟨t, bs, ht, hrsp, hkind, hlength, hopen, hcrc⟩ := execAll_call s hcs
  exact ⟨t, bs, _, ht, calculateCrc_length .., hrsp, hkind, hlength, hopen, hcrc⟩

/-- Settles O22: `FINAL` finds a register in `CRC`, and only a call of this run can have put it there. -/
theorem everyResultComesFromACall : Obligations.EveryResultComesFromACall := by
  intro s t u is hs hrun hfinal
  obtain ⟨c, hc, rfl⟩ : ∃ c, readCrc t = some c ∧ u = invalidateCrc (clearOpen (respond .result (finalize c) t)) := by
    simpa using exec_cases hfinal
  obtain ⟨before, inside, his, hinside, rfl⟩ := execAll_open_call hs hrun hc
  exact ⟨before, inside, _, his, hinside, calculateCrc_length .., rfl⟩

/-- Settles O23: both last beats are named by the same `POLYNOMIAL` and Words. -/
theorem resultIndependentOfEarlierHistory : Obligations.ResultIndependentOfEarlierHistory := by
  intro s₁ s₂ t₁ t₂ cs₁ cs₂ hconfig hcs₁ hcs₂ hwords h₁ h₂
  rw [getLast?_rsp_of_call hcs₁ h₁, getLast?_rsp_of_call hcs₂ h₂, hconfig, hwords]

/-- Settles O30: the shift brings a 0 into bit 0 and the neighbour below into every other one. -/
theorem bitstepBitByBit : Obligations.BitstepBitByBit := by
  refine fun p crc bit => ⟨?_, fun j low high => ?_⟩
  · rw [getLsbD_bitstep p crc bit 0 (by decide)]
    simp
  · rw [getLsbD_bitstep p crc bit j (by omega), decide_eq_true low, Bool.true_and]

/-- Settles O32: all-ones is its own reflection, and both the reflection and the inversion undo themselves. -/
theorem finalizeIsABijection : Obligations.FinalizeIsABijection :=
  ⟨fun _ => rfl, finalize_eq_reflect_xor, finalize_reflect_xor, reflect_finalize_xor, finalize_bijective⟩

/-- Settles O33: the outer loop, within the sequence and past its end. -/
theorem calculateCrcReadsExactlyLength : Obligations.CalculateCrcReadsExactlyLength :=
  fun p _ _ => ⟨calculateCrc_of_le p, calculateCrc_of_length_lt p⟩

/-- Settles O34: no bit-step is made, and the initial register finalizes to 0. -/
theorem emptySequenceGivesZero : Obligations.EmptySequenceGivesZero :=
  fun _ => ⟨rfl, congrArg some finalize_initValue⟩

/-- Settles O35: the register is a left fold over the Words. -/
theorem foldLaw : Obligations.FoldLaw :=
  fun p => ⟨rfl, fun ws w => ⟨register_append p ws [w], calculateCrc_length p ws⟩⟩

/-- Settles O36: every pass meets the very bit it shifts out. -/
theorem foldingTheOwnReflectionEmptiesTheRegister : Obligations.FoldingTheOwnReflectionEmptiesTheRegister :=
  foldWord_reflect_self

/-- Settles O37: with `POLYNOMIAL` 0 any Word empties the register, with 1 it is XORed into the Result. -/
theorem degeneratePolynomials : Obligations.DegeneratePolynomials := by
  refine ⟨fun w ws => ?_, fun ws => ?_⟩
  · rw [calculateCrc_length, register_zero_polynomial, finalize, reflect_zero]
    rfl
  · rw [calculateCrc_length, finalize_register_one]

/-- Settles O38: the bit-step is mirrored first, then the Word, then the call. -/
theorem rightShiftingFormAgrees : Obligations.RightShiftingFormAgrees := by
  refine ⟨reflect_bitstep, reflect_foldWord, rightFold_eq_rightFoldXored, fun p ws => ?_, by decide⟩
  rw [calculateCrc_length, finalize_register_eq_rightCrc]

/-- Settles O39: the register is linear up to its initial value, the Result up to the inversion. -/
theorem resultIsAffineOverXor : Obligations.ResultIsAffineOverXor := by
  intro p as bs cs hab hbc
  have hlength : as.length = (List.zipWith (· ^^^ ·) (List.zipWith (· ^^^ ·) as bs) cs).length := by simp [hab, hbc]
  refine ⟨_, _, _, calculateCrc_length p as, calculateCrc_length p bs, calculateCrc_length p cs, ?_⟩
  rw [hlength, calculateCrc_length, register_zipWith_xor p hab hbc, finalize_xor_xor]

end Sys2Proof.Machine

end

-- Where a command completes, and a host that brackets its Words (R132, R152)

section

namespace Sys2Proof.Machine

/-- In a state that meets R22, `CRC` cannot be read exactly where no call is open. -/
theorem readCrc_eq_none_iff_of_crcValid {s : State} (hs : crcValid s = true) : readCrc s = none ↔ s.isOpen = false := by
  rw [readCrc_eq_none, crcValid_iff.mp hs, Option.isSome_eq_false_iff, Option.isNone_iff_eq_none, or_self]

theorem exists_readCrc_of_isOpen {s : State} (hs : crcValid s = true) (ho : s.isOpen = true) : ∃ c, readCrc s = some c :=
  Option.ne_none_iff_exists'.mp fun hc => by simp [(readCrc_eq_none_iff_of_crcValid hs).mp hc] at ho

/-- A legal command completes (R88, R110 to R112). -/
theorem exec_of_legal {i : Instr} {s : State} (hs : crcValid s = true) (hi : legal i s = true) : ∃ t, exec i s = .next t := by
  cases i with
  | init => exact ⟨_, rfl⟩
  | word w =>
    obtain ⟨c, hc⟩ := exists_readCrc_of_isOpen hs hi
    exact ⟨_, execWord_of_readCrc hc w⟩
  | final =>
    obtain ⟨c, hc⟩ := exists_readCrc_of_isOpen hs hi
    exact ⟨_, execFinal_of_readCrc hc⟩
  | reflect v n =>
    obtain ⟨t, ht, -⟩ := execReflect_readCrc v n s
    exact ⟨t, ht⟩

/-- A command that completes was legal: `WORD` and `FINAL` read `CRC`. -/
theorem legal_of_exec {i : Instr} {s t : State} (h : exec i s = .next t) : legal i s = true := by
  rcases exec_cases h with ⟨rfl, -⟩ | ⟨w, c, rfl, hc, -⟩ | ⟨c, rfl, hc, -⟩ | ⟨v, n, w, rfl, -⟩ | ⟨v, n, rfl, -⟩
  · rfl
  · exact (readCrc_eq_some.mp hc).1
  · exact (readCrc_eq_some.mp hc).1
  · rfl
  · rfl

/-- The two protocol violations of R132, and no others. -/
theorem exec_eq_refused_iff {i : Instr} {s : State} {r : Refusal} :
    exec i s = .refused r ↔
      readCrc s = none ∧ ((∃ w, i = .word w ∧ r = .wordOutsideCall) ∨ (i = .final ∧ r = .finalOutsideCall)) := by
  refine ⟨exec_refused_cases, ?_⟩
  rintro ⟨hc, ⟨w, rfl, rfl⟩ | ⟨rfl, rfl⟩⟩
  · exact execWord_of_readCrc_eq_none hc w
  · exact execFinal_of_readCrc_eq_none hc

/-- What a command that completes leaves in `OPEN` (R88, R110 to R112). -/
def openAfter (i : Instr) (opened : Bool) : Bool :=
  match i with
  | .init => true
  | .word _ => opened
  | .final => false
  | .reflect _ _ => opened

theorem exec_isOpen {i : Instr} {s t : State} (h : exec i s = .next t) : t.isOpen = openAfter i s.isOpen := by
  rcases exec_cases h with ⟨rfl, rfl⟩ | ⟨_, _, rfl, -, rfl⟩ | ⟨_, rfl, -, rfl⟩ | ⟨_, _, _, rfl, -, rfl⟩ | ⟨_, _, rfl, -, rfl⟩ <;> rfl

/-- A host that brackets its Words issues a legal command and brackets on from the `OPEN` it leaves (R152). -/
theorem bracketed_command (c : CommandWord) (es : List Event) (s : State) :
    bracketed s.isOpen (.command c :: es) = (legal (decode c) s && bracketed (openAfter (decode c) s.isOpen) es) := by
  rw [bracketed]
  cases decode c <;> rfl

/-- The next event of a host that brackets its Words completes, and the host brackets on from the state it leaves (R152). -/
theorem handleEvent_of_bracketed {e : Event} {es : List Event} {s : State} (hs : crcValid s = true)
    (h : bracketed s.isOpen (e :: es) = true) : ∃ t, handleEvent e s = .next t ∧ bracketed t.isOpen es = true := by
  cases e with
  | command c =>
    rw [bracketed_command, Bool.and_eq_true] at h
    obtain ⟨hlegal, hrest⟩ := h
    obtain ⟨t, ht⟩ := exec_of_legal hs hlegal
    exact ⟨t, ht, by rwa [exec_isOpen ht]⟩
  | take => exact ⟨_, rfl, by rwa [takeBeat_isOpen]⟩
  | reset => exact ⟨_, rfl, h⟩

theorem handleAll_cons_of_next {e : Event} {es : List Event} {s t : State} (h : handleEvent e s = .next t) :
    handleAll (e :: es) s = handleAll es t := by
  rw [handleAll, h]

end Sys2Proof.Machine

end

-- The obligations on refusals (60_exceptions.md)

section

namespace Sys2Proof.Machine

/-- Settles O18: where R22 holds, `CRC` is readable exactly with `OPEN` 1, and only `WORD` and `FINAL` read it. -/
theorem commandsCompleteExactlyWhereLegal : Obligations.CommandsCompleteExactlyWhereLegal := by
  refine fun i s hs => ⟨⟨fun ⟨_, ht⟩ => legal_of_exec ht, exec_of_legal hs⟩, fun r => ?_⟩
  rw [exec_eq_refused_iff, readCrc_eq_none_iff_of_crcValid hs]

/-- Settles O25, by induction on the events: each completes, keeps R22 and leaves the host bracketing on. -/
theorem bracketedHostIsNeverRefused : Obligations.BracketedHostIsNeverRefused := by
  intro es
  induction es with
  | nil => exact fun s hs _ => ⟨s, rfl, hs⟩
  | cons e es ih =>
    intro s hs h
    obtain ⟨u, hu, hrest⟩ := handleEvent_of_bracketed hs h
    rw [handleAll_cons_of_next hu]
    exact ih u (handleEvent_crcValid hs hu) hrest

end Sys2Proof.Machine

end

-- Events and unbounded runs: commands offered, beats taken, beginnings and middles (R13, R67, R158)

section

namespace Sys2Proof.Machine

/-- Canonical words do what their commands do (R63, R67). -/
theorem handleAll_offered {is : List Instr} (his : ∀ i ∈ is, i.wellFormed = true) (s : State) :
    handleAll (offered is) s = execAll is s := by
  induction is generalizing s with
  | nil => rfl
  | cons i is ih =>
    obtain ⟨hi, his⟩ := List.forall_mem_cons.mp his
    have hevent : handleEvent (.command (encode i)) s = exec i s := congrArg (exec · s) (decode_encode hi)
    rw [offered, List.map_cons, ← offered, handleAll, hevent, execAll]
    cases exec i s with
    | next t => exact ih his t
    | fault f => rfl
    | refused r => rfl

theorem wordsOf_map_word (ws : List Word) : wordsOf (ws.map .word) = ws := by
  induction ws with
  | nil => rfl
  | cons w ws ih => rw [List.map_cons, wordsOf, ih]

/-- The pseudo-command `CRC` is made of commands that fit their fields (R60, R70). -/
theorem wellFormed_of_mem_crcCall (ws : List Word) : ∀ i ∈ crcCall ws, i.wellFormed = true := by
  simp only [crcCall, List.forall_mem_cons, List.forall_mem_append, List.forall_mem_map]
  exact ⟨rfl, fun _ _ => rfl, rfl, List.forall_mem_nil _⟩

/-- As many takes as there are beats hand over every beat, and touch nothing of the call (R67). -/
theorem handleAll_replicate_take (s : State) :
    ∃ t, handleAll (List.replicate s.rsp.length .take) s = .next t ∧
      t.taken = s.taken ++ s.rsp ∧ t.rsp = [] ∧ t.isOpen = s.isOpen := by
  generalize hrsp : s.rsp = bs
  induction bs generalizing s with
  | nil => exact ⟨s, rfl, by simp, hrsp, rfl⟩
  | cons b bs ih =>
    obtain ⟨t, ht, htaken, hempty, hopen⟩ := ih (takeBeat s) (by rw [takeBeat_rsp, hrsp, List.tail_cons])
    refine ⟨t, ht, ?_, hempty, hopen.trans (takeBeat_isOpen s)⟩
    rw [htaken, takeBeat_of_cons hrsp, List.append_assoc, List.singleton_append]

/-- A run that goes on to one point came through every point before (R158). -/
theorem eventRun_of_le {es : Nat → Event} {s u : State} {n m : Nat} (hnm : n ≤ m) (h : eventRun es s m = .next u) :
    ∃ t, eventRun es s n = .next t := by
  induction hnm using Nat.decreasingInduction with
  | self => exact ⟨u, h⟩
  | of_succ k _ ih =>
    obtain ⟨v, hv⟩ := ih
    obtain ⟨t, ht, -⟩ := eventRun_succ_cases hv
    exact ⟨t, ht⟩

/-- From one point of a run to a later one: the event at the first, then those between the two (R158). -/
theorem eventRun_between {es : Nat → Event} {s t u : State} {n m : Nat} (hnm : n < m)
    (hn : eventRun es s n = .next t) (hm : eventRun es s m = .next u) :
    ∃ v, handleEvent (es n) t = .next v ∧ handleAll (eventsBetween es n m) v = .next u := by
  obtain ⟨v, hv⟩ := eventRun_of_le (Nat.succ_le_of_lt hnm) hm
  obtain ⟨t', ht', hevent⟩ := eventRun_succ_cases hv
  cases hn.symm.trans ht'
  have hsplit : (List.range m).map es = (List.range (n + 1)).map es ++ eventsBetween es n m := by
    obtain ⟨d, rfl⟩ := Nat.exists_eq_add_of_lt hnm
    rw [eventsBetween, ← List.map_append, List.range_eq_range', List.range_eq_range', show n + d + 1 = n + 1 + d by omega,
      Nat.add_sub_cancel_left, ← List.range'_append_1, Nat.zero_add]
  rw [eventRun_eq_handleAll, hsplit, handleAll_append, ← eventRun_eq_handleAll, hv] at hm
  exact ⟨v, hevent, hm⟩

theorem eventRun_config {es : Nat → Event} {s t : State} {n : Nat} (h : eventRun es s n = .next t) :
    t.config = s.config := by
  induction n generalizing t with
  | zero => cases h; rfl
  | succ n ih =>
    obtain ⟨u, hu, hevent⟩ := eventRun_succ_cases h
    exact (handleEvent_config_stream hevent).1.trans (ih hu)

/-- What holds of every event between two points holds along the list of them. -/
theorem forall_mem_eventsBetween {P : Event → Prop} {es : Nat → Event} {n m : Nat} (h : ∀ j, n < j → j < m → P (es j)) :
    ∀ e ∈ eventsBetween es n m, P e := by
  simp only [eventsBetween, List.forall_mem_map, List.mem_range'_1]
  exact fun j hj => h j (by omega) (by omega)

end Sys2Proof.Machine

end

-- The beats made in a run without a reset, and a call in progress (R50, R158)

section

namespace Sys2Proof.Machine

theorem opensCall_iff {e : Event} : opensCall e = true ↔ ∃ c, e = .command c ∧ decode c = .init := by
  cases e <;> simp [opensCall]

theorem closesCall_iff {e : Event} : closesCall e = true ↔ ∃ c, e = .command c ∧ decode c = .final := by
  cases e <;> simp [closesCall]

/-- What leaves a call in progress is no `INIT`, no `FINAL` and no reset (R158). -/
theorem not_ends_of_continuesCall {e : Event} (h : continuesCall e = true) :
    opensCall e = false ∧ closesCall e = false ∧ e ≠ .reset := by
  cases e with
  | command c =>
    have hc : insideCall (decode c) = true := h
    have hinit : decode c ≠ .init := fun hd => by simp [hd, insideCall] at hc
    simp [opensCall, closesCall, hinit, ne_final_of_insideCall hc]
  | take => simp [opensCall, closesCall]
  | reset => simp [continuesCall] at h

/-- An accepted `FINAL` is no `INIT` and no reset. -/
theorem not_abandons_of_closesCall {e : Event} (h : closesCall e = true) : opensCall e = false ∧ e ≠ .reset := by
  obtain ⟨c, rfl, hc⟩ := closesCall_iff.mp h
  simp [opensCall, hc]

theorem withoutReset_of_forall {es : List Event} (h : ∀ e ∈ es, e ≠ .reset) : withoutReset es = true := by
  simpa [withoutReset] using h

/-- The commands among events that leave a call in progress are the call's own (R41). -/
theorem commandsOf_all_insideCall {es : List Event} (h : ∀ e ∈ es, continuesCall e = true) :
    (commandsOf es).all insideCall = true := by
  induction es with
  | nil => rfl
  | cons e es ih =>
    obtain ⟨he, hes⟩ := List.forall_mem_cons.mp h
    cases e with
    | command c =>
      have hc : insideCall (decode c) = true := he
      rw [commandsOf, List.all_cons, hc, ih hes]
      rfl
    | take => exact ih hes
    | reset => simp [continuesCall] at he

/-- The event that abandons a call can stand neither before, nor at, nor after a `FINAL` that completes it (R158). -/
theorem not_callComplete_of_callAbandoned {es : Nat → Event} {s : State} {n m m' k : Nat} {b : Beat}
    (h : callAbandoned es n m) : ¬ callComplete es s n m' k b := by
  obtain ⟨⟨hnm, -, hcontinues⟩, hends⟩ := h
  rintro ⟨⟨hnm', -, hcontinues'⟩, hcloses, -⟩
  obtain hlt | rfl | hgt := lt_trichotomy m m'
  · obtain ⟨hopens, -, hreset⟩ := not_ends_of_continuesCall (hcontinues' m hnm hlt)
    simp [hopens, hreset] at hends
  · obtain ⟨hopens, hreset⟩ := not_abandons_of_closesCall hcloses
    simp [hopens, hreset] at hends
  · obtain ⟨-, hnotCloses, -⟩ := not_ends_of_continuesCall (hcontinues m' hnm' hgt)
    simp [hnotCloses] at hcloses

/-- Commands append to the beats made, and the beats made before stay where they are (R50). -/
theorem execAll_rsp_prefix {is : List Instr} {s t : State} (h : execAll is s = .next t) : s.rsp <+: t.rsp := by
  induction is generalizing s with
  | nil => cases h; exact List.prefix_rfl
  | cons i is ih =>
    obtain ⟨u, hu, ht⟩ := execAll_cons_eq_next.mp h
    obtain ⟨bs, hbs, -⟩ := exec_rsp_append hu
    exact List.IsPrefix.trans ⟨bs, hbs.symm⟩ (ih ht)

/-- Without a reset the beats made, taken or not, only grow at their end (R50, R67). -/
theorem beats_prefix_of_handleAll {es : List Event} {s t : State} (hes : withoutReset es = true)
    (h : handleAll es s = .next t) : s.taken ++ s.rsp <+: t.taken ++ t.rsp := by
  obtain ⟨u, hu, -, -, hbeats⟩ := (runDependsOnAcceptedCommandsOnly es s hes).1 t h
  rw [hbeats, List.prefix_append_right_inj]
  exact execAll_rsp_prefix hu

/-- A call in progress: the register is that of its Words so far, and the beats made since its `INIT` are of kind 1
(R23, R88). -/
theorem run_of_inProgress {es : Nat → Event} {s t u : State} {n m : Nat} (h : inProgress es n m)
    (hn : eventRun es s n = .next t) (hm : eventRun es s m = .next u) :
    readCrc u = some (register s.config.polynomial (wordsOf (commandsOf (eventsBetween es n m)))) ∧
    ∃ bs : List Beat, u.taken ++ u.rsp = t.taken ++ t.rsp ++ bs ∧ ∀ b ∈ bs, b.kind = .reflected := by
  obtain ⟨hnm, hopens, hcontinues⟩ := h
  obtain ⟨c, hc, hinit⟩ := opensCall_iff.mp hopens
  obtain ⟨v, hv, hrun⟩ := eventRun_between hnm hn hm
  obtain rfl : setOpen (writeCrc Config.initValue t) = v := by simpa [hc, handleEvent, hinit, execInit] using hv
  have hbetween := forall_mem_eventsBetween (P := fun e => continuesCall e = true) hcontinues
  have hinside := commandsOf_all_insideCall hbetween
  have hreset : withoutReset (eventsBetween es n m) = true :=
    withoutReset_of_forall fun e he => (not_ends_of_continuesCall (hbetween e he)).2.2
  obtain ⟨w, hw, hcrc, hopen, hbeats⟩ := (runDependsOnAcceptedCommandsOnly _ _ hreset).1 u hrun
  obtain ⟨bs, hrsp, hkind, -⟩ := execAll_insideCall_rsp hinside hw
  have hread : readCrc (setOpen (writeCrc Config.initValue t)) = some Config.initValue := rfl
  obtain ⟨w', hw', hregister⟩ := execAll_insideCall hinside hread
  cases hw.symm.trans hw'
  refine ⟨?_, bs, by simp [hbeats, hrsp], hkind⟩
  have hsame : readCrc u = readCrc w := by rw [readCrc, readCrc, hcrc, hopen]
  rw [hsame, hregister, ← eventRun_config hn]
  rfl

/-- `FINAL` puts the Result behind every beat made before (R112). -/
theorem beats_of_exec_final {s t : State} {c : Word} (hc : readCrc s = some c) (h : exec .final s = .next t) :
    t.taken ++ t.rsp = s.taken ++ s.rsp ++ [⟨.result, finalize c⟩] := by
  cases (execFinal_of_readCrc hc).symm.trans h
  exact (List.append_assoc ..).symm

/-- The beat of a complete call: `FINAL` appends it to the beats made, and no event but a reset moves it from there
(R158). -/
theorem beat_of_callComplete {es : Nat → Event} {s : State} {n m k : Nat} {b : Beat} (h : callComplete es s n m k b) :
    b = ⟨.result, finalize (register s.config.polynomial (wordsOf (commandsOf (eventsBetween es n m))))⟩ := by
  obtain ⟨hprogress, hcloses, hmk, hreset, t, u, ht, hu, hb⟩ := h
  obtain ⟨r, hr⟩ := eventRun_of_le hprogress.1.le ht
  obtain ⟨hread, -⟩ := run_of_inProgress hprogress hr ht
  obtain ⟨c, hc, hfinal⟩ := closesCall_iff.mp hcloses
  obtain ⟨v, hv, hrun⟩ := eventRun_between hmk ht hu
  rw [hc, handleEvent, hfinal] at hv
  obtain ⟨later, hlater⟩ := beats_prefix_of_handleAll
    (withoutReset_of_forall (forall_mem_eventsBetween (P := (· ≠ .reset)) hreset)) hrun
  have hplace : (u.taken ++ u.rsp)[(t.taken ++ t.rsp).length]? = some b := by
    obtain ⟨hlt, -⟩ := List.getElem?_eq_some_iff.mp hb
    rw [List.length_append, List.getElem?_append_left hlt, hb]
  rw [← hlater, beats_of_exec_final hread hv, List.append_assoc, List.getElem?_append_right le_rfl, Nat.sub_self] at hplace
  exact (Option.some.inj hplace).symm

end Sys2Proof.Machine

end

-- The bit-serial unit, cycle by cycle (R161)

section

namespace Sys2Proof.Machine

/-- The unit `n` cycles after it loaded the Word `w`: `n` passes of R102 made, the next bit at the top of `BLOCK`. -/
def serialAfter (p w : Word) (u : SerialUnit) (n : Nat) : SerialUnit :=
  { u with
    crc := foldLoop p (reflect w Width.full) u.crc n, block := reflect w Width.full <<< n, bitCount := BitVec.ofNat 6 n,
    cmdReady := decide (n = 32) }

/-- A cycle before the last one makes one pass (R161). -/
theorem serialCycle_serialAfter (p w : Word) (u : SerialUnit) {n : Nat} (hn : n < 32) :
    serialCycle p (serialAfter p w u n) = serialAfter p w u (n + 1) := by
  have hbusy : (serialAfter p w u n).cmdReady = false := decide_eq_false (by omega)
  have hcount : (serialAfter p w u n).bitCount.toNat < 32 :=
    ((BitVec.toNat_ofNat n 6).trans (Nat.mod_eq_of_lt (by omega))).trans_lt hn
  have htop : (reflect w Width.full <<< n).getLsbD 31 = (reflect w Width.full).getLsbD (31 - n) := by
    have hlow : ¬ 31 < n := by omega
    rw [BitVec.getLsbD_shiftLeft, decide_eq_false hlow]
    rfl
  have hnext : BitVec.ofNat 6 n + 1 = BitVec.ofNat 6 (n + 1) := (BitVec.ofNat_add n 1).symm
  have hlast : BitVec.ofNat 6 (n + 1) = 32#6 ↔ n + 1 = 32 := by
    rw [← BitVec.toNat_inj, BitVec.toNat_ofNat, Nat.mod_eq_of_lt (by omega), BitVec.toNat_ofNat]
  rw [serialCycle, hbusy, if_neg Bool.false_ne_true, if_pos hcount]
  simp only [serialAfter, htop, hnext, hlast, foldLoop_succ, BitVec.shiftLeft_add]

theorem serialCycles_serialLoad (p w : Word) (u : SerialUnit) {n : Nat} (hn : n ≤ 32) :
    serialCycles p n (serialLoad w u) = serialAfter p w u n := by
  induction n with
  | zero => simp [serialCycles, serialLoad, serialAfter]
  | succ n ih => rw [serialCycles_succ, ih (by omega), serialCycle_serialAfter p w u (by omega)]

/-- `T_WORD = 33` and 1 for every other command (R161). -/
theorem serialLatency_of_not_word {i : Instr} (hi : ∀ w, i ≠ .word w) : serialLatency i = 1 := by
  cases i with
  | word w => exact absurd rfl (hi w)
  | init => rfl
  | final => rfl
  | reflect v n => rfl

/-- A command that is no `WORD` is done in its accepting cycle (R110, R112, R88, R161). -/
theorem serialHolds_serialAccept {i : Instr} {s t : State} {u : SerialUnit} {draw : Word} (hi : ∀ w, i ≠ .word w)
    (hu : serialHolds u s) (h : exec i s = .next t) (hdraw : ∀ v bits, i = .reflect v bits → draw = nextDraw v bits s) :
    serialHolds (serialAccept draw i u) t := by
  obtain ⟨hready, hopen, hrsp, hcrc⟩ := hu
  rcases exec_cases h with ⟨rfl, rfl⟩ | ⟨w, c, rfl, -⟩ | ⟨c, rfl, hc, rfl⟩ | ⟨v, n, w, rfl, hw, rfl⟩ | ⟨v, n, rfl, hw, rfl⟩
  · exact ⟨hready, rfl, hrsp, fun c hc => Option.some.inj hc⟩
  · exact absurd rfl (hi w)
  · refine ⟨hready, rfl, ?_, fun c hc => by simp [readCrc] at hc⟩
    simp [serialAccept, serialRespond, hrsp, hcrc c hc]
  · rw [serialAccept, hw]
    exact ⟨hready, hopen, by simp [serialRespond, hrsp], hcrc⟩
  · rw [serialAccept, hw]
    exact ⟨hready, hopen, by simp [serialRespond, hrsp, hdraw v n rfl], hcrc⟩

/-- A `WORD` is done after 32 further cycles (R111, R161). -/
theorem serialHolds_serialAfter {w : Word} {s t : State} {u : SerialUnit} (hu : serialHolds u s)
    (h : execWord w s = .next t) : serialHolds (serialAfter s.config.polynomial w u 32) t := by
  obtain ⟨-, hopen, hrsp, hcrc⟩ := hu
  obtain ⟨c, hc, rfl⟩ : ∃ c, readCrc s = some c ∧ t = writeCrc (foldWord s.config.polynomial c w) s := by
    simpa using exec_cases (i := .word w) h
  refine ⟨rfl, hopen, hrsp, fun d hd => ?_⟩
  obtain ⟨-, hvalue⟩ := readCrc_eq_some.mp hd
  rw [← Option.some.inj hvalue, ← hcrc c hc]
  rfl

/-- A call of `n` Words takes `33n + 2` cycles (R161). -/
theorem sum_serialLatency_crcCall (ws : List Word) : ((crcCall ws).map serialLatency).sum = 33 * ws.length + 2 := by
  have hwords : (ws.map Instr.word).map serialLatency = List.replicate ws.length 33 := by
    rw [List.map_map]
    exact List.map_const'
  rw [crcCall, List.map_cons, List.map_append, hwords]
  simp [serialLatency]
  omega

end Sys2Proof.Machine

end

-- A host that waits, and the queue it empties meanwhile (R67, R157)

section

namespace Sys2Proof.Machine

/-- The state after `n` edges of a block that accepts no command: the host takes beats, and nothing else happens (R67). -/
def idleState (f : Nat → Bool × PortInputs) (s : State) : Nat → State
  | 0 => s
  | n + 1 => afterTake (f n).2 (idleState f s n)

/-- While no command is accepted the queue does not grow (R65). -/
theorem antitone_length_rsp_idleState (f : Nat → Bool × PortInputs) (s : State) :
    Antitone fun n => (idleState f s n).rsp.length :=
  antitone_nat_of_succ_le fun n => (length_rsp_afterTake (f n).2 (idleState f s n)).trans_le (beatsLeft_le ..)

section

variable {f : Nat → Bool × PortInputs} {s : State} (hrst : ∀ n, (f n).2.rst = false)
include hrst

/-- A command offered at the first edge stands, unchanged, up to the edge that accepts one (R67, R163). -/
theorem held_until_accepted (hvalid : (f 0).2.cmdValid = true)
    (hholds : ∀ n, hostHolds (f n).1 (f n).2 (f (n + 1)).2 = true) {m : Nat}
    (hwait : ∀ k < m, acceptsCommand (f k).1 (f k).2 = false) :
    (f m).2.cmdValid = true ∧ (f m).2.cmd = (f 0).2.cmd := by
  induction m with
  | zero => exact ⟨hvalid, rfl⟩
  | succ m ih =>
    obtain ⟨hvalidBefore, hcmdBefore⟩ := ih fun k hk => hwait k (by omega)
    have hnotReady : (f m).1 = false := by
      simpa [acceptsCommand_of_not_rst _ (hrst m), hvalidBefore] using hwait m (by omega)
    have hhold := hholds m
    rw [hnotReady] at hhold
    obtain ⟨hvalidAfter, hcmdAfter⟩ := hostHolds_of_waiting (hrst m) hvalidBefore hhold
    exact ⟨hvalidAfter, hcmdAfter.trans hcmdBefore⟩

theorem edgeRun_eq_idleState (hnone : ∀ k, acceptsCommand (f k).1 (f k).2 = false) (n : Nat) :
    edgeRun f s n = .next (idleState f s n) := by
  induction n with
  | zero => rfl
  | succ n ih =>
    rw [edgeRun, ih]
    exact clockEdge_of_not_accepts _ (hrst n) (hnone n)

/-- A host that eventually takes every beat empties the queue: where it is shortest, no beat can be left to take (R157). -/
theorem exists_rsp_idleState_eq_nil (hnone : ∀ k, acceptsCommand (f k).1 (f k).2 = false)
    (htakes : hostTakesEventually f s) : ∃ n, (idleState f s n).rsp = [] := by
  let n := Function.argmin fun n => (idleState f s n).rsp.length
  have hshortest (k : Nat) : (idleState f s n).rsp.length ≤ (idleState f s k).rsp.length :=
    Function.argmin_le (fun n => (idleState f s n).rsp.length) k
  refine ⟨n, by_contra fun hne => ?_⟩
  obtain ⟨m, hnm, hr, hready⟩ := htakes n _ (edgeRun_eq_idleState hrst hnone n) hne
  have hsame : (idleState f s m).rsp.length ≤ (idleState f s n).rsp.length := antitone_length_rsp_idleState f s hnm
  have hpos := List.length_pos_iff.mpr hne
  have hm : (idleState f s m).rsp ≠ [] := List.length_pos_iff.mp (hpos.trans_le (hshortest m))
  have htake : takesBeat (f m).2 (idleState f s m) = true := by simp [takesBeat, hr, hready, hm]
  have hnext := hshortest (m + 1)
  rw [idleState, length_rsp_afterTake, beatsLeft, if_pos htake] at hnext
  omega

end

end Sys2Proof.Machine

end

-- The obligations on complete calls, the serial unit, fairness and unbounded runs (70_reset_and_hazards.md)

section

namespace Sys2Proof.Machine

/-- Settles O26: the canonical words run the call, which makes no beat but the Result, and the takes hand every beat over. -/
theorem completedCallIsDelivered : Obligations.CompletedCallIsDelivered := by
  intro s ws
  have hinside : (ws.map Instr.word).all insideCall = true := by simp [insideCall]
  obtain ⟨t, bs, ht, hrsp, -, hlength, hopen, -⟩ := execAll_call s hinside
  obtain rfl : bs = [] := List.length_eq_zero_iff.mp (by simpa [wordsOf_map_word] using hlength)
  rw [wordsOf_map_word, List.append_nil] at hrsp
  obtain ⟨u, hu, htaken, hempty, hsame⟩ := handleAll_replicate_take t
  have hcount : s.rsp.length + 1 = t.rsp.length := by simp [hrsp]
  refine ⟨u, _, ?_, calculateCrc_length .., ?_, hempty, hsame.trans hopen⟩
  · rw [handleAll_append, handleAll_offered (wellFormed_of_mem_crcCall ws), hcount, crcCall, ht]
    exact hu
  · rw [htaken, execAll_taken ht, hrsp, List.append_assoc]

/-- Settles O40: the unit's registers after each of the 32 cycles. -/
theorem serialUnitComputesFoldWord : Obligations.SerialUnitComputesFoldWord := by
  intro p draw w u
  refine ⟨congrArg SerialUnit.crc (serialCycles_serialLoad p w u le_rfl), fun n hn => ?_⟩
  rw [serialAccept, serialCycles_serialLoad p w u hn]
  exact decide_eq_true_iff

/-- Settles O47: a `WORD` is its 32 further cycles, every other command its accepting cycle alone. -/
theorem serialUnitRefinesTheCommands : Obligations.SerialUnitRefinesTheCommands := by
  refine ⟨fun i s t u draw hu h hdraw => ?_, sum_serialLatency_crcCall⟩
  by_cases hi : ∃ w, i = .word w
  · obtain ⟨w, rfl⟩ := hi
    refine ⟨?_, fun n hn => ?_⟩
    · exact (serialCycles_serialLoad _ w u le_rfl).symm ▸ serialHolds_serialAfter hu h
    · replace hn : n < 32 := hn
      rw [serialAccept, serialCycles_serialLoad _ w u hn.le]
      exact decide_eq_false hn.ne
  · rw [not_exists] at hi
    rw [serialLatency_of_not_word hi]
    exact ⟨serialHolds_serialAccept hi hu h hdraw, fun n hn => absurd hn (Nat.not_lt_zero n)⟩

/-- Settles O48: were no command ever accepted, the queue would run empty, have room from then on, and fairness would bring
`cmd_ready` for the command that still stands. -/
theorem offeredCommandIsEventuallyAccepted : Obligations.OfferedCommandIsEventuallyAccepted := by
  intro depth f s hdepth hrst hvalid hholds htakes hfair
  have hsome : ∃ m, acceptsCommand (f m).1 (f m).2 = true := by
    by_contra! hnever
    have hnone (k : Nat) : acceptsCommand (f k).1 (f k).2 = false := Bool.eq_false_of_not_eq_true (hnever k)
    have hstands (m : Nat) := held_until_accepted hrst hvalid hholds (m := m) fun k _ => hnone k
    obtain ⟨n, hempty⟩ := exists_rsp_idleState_eq_nil hrst hnone htakes
    have hroom (m : Nat) (hnm : n ≤ m) : hasRoom depth (f m).2 (idleState f s m) = true := by
      have hshort : (idleState f s m).rsp.length ≤ (idleState f s n).rsp.length := antitone_length_rsp_idleState f s hnm
      have hleft := beatsLeft_le (f m).2 (idleState f s m)
      rw [hempty, List.length_nil] at hshort
      exact decide_eq_true (by omega)
    obtain ⟨m, -, hready⟩ := hfair n fun m hnm =>
      ⟨_, edgeRun_eq_idleState hrst hnone m, hrst m, (hstands m).1, hroom m hnm⟩
    exact hnever m (by rw [acceptsCommand_of_not_rst _ (hrst m), (hstands m).1, hready]; rfl)
  have hbefore (k : Nat) (hk : k < Nat.find hsome) : acceptsCommand (f k).1 (f k).2 = false :=
    Bool.eq_false_of_not_eq_true (Nat.find_min hsome hk)
  exact ⟨Nat.find hsome, Nat.find_spec hsome, (held_until_accepted hrst hvalid hholds hbefore).2, hbefore⟩

/-- Settles O49: the first events of a sequence are a finite run, and a bracketed finite run is never refused. -/
theorem unboundedRunIsStepByStep : Obligations.UnboundedRunIsStepByStep := by
  refine ⟨fun es n rest s => ?_, fun es s hs hbracketed => ?_⟩
  · have hrun := run_withInputs_append ((List.range n).map es) rest s
    rw [List.length_map, List.length_range, ← eventRun_eq_handleAll] at hrun
    exact hrun
  · have hnext (n : Nat) : ∃ t, eventRun es s n = .next t ∧ crcValid t = true := by
      rw [eventRun_eq_handleAll]
      exact bracketedHostIsNeverRefused _ s hs (hbracketed n)
    refine ⟨fun n => (hnext n).imp fun t => And.left, fun n t ht => ?_⟩
    obtain ⟨u, hu, hvalid⟩ := hnext n
    cases ht.symm.trans hu
    exact hvalid

/-- Settles O50: the beat at `FINAL`'s place is the one `FINAL` made of the register of the call's Words. -/
theorem completeCallsBeatIsItsResult : Obligations.CompleteCallsBeatIsItsResult := by
  intro es s n m k b h
  rw [beat_of_callComplete h]
  exact ⟨rfl, calculateCrc_length ..⟩

/-- Settles O51: a call in progress holds its register, which it does with `OPEN` 1 only. -/
theorem unfinishedCallHasNoResult : Obligations.UnfinishedCallHasNoResult := by
  refine ⟨fun es s t u n m h hn hm => ?_, fun es s n m m' k b => not_callComplete_of_callAbandoned⟩
  obtain ⟨hread, hbeats⟩ := run_of_inProgress h hn hm
  exact ⟨(readCrc_eq_some.mp hread).1, hbeats⟩

end Sys2Proof.Machine

end
